-- ==== Sys2Proof/Word.lean ====
section
/-! DEFINITION. The 64-bit word, the byte, and the narrowing of an exact integer to a word (00_scope.md R9). -/

namespace Sys2Proof

/-- A register or a memory word: a 64-bit vector, bit 0 least significant (R9).
`int(v)` of the spec is `v.toInt`, `uint(v)` is `v.toNat`. -/
abbrev Word := BitVec 64

/-- A byte of either store's byte view (R43). -/
abbrev Byte := BitVec 8

/-- `word(i)` of R9: the vector whose two's-complement value is `i` reduced modulo 2^64. -/
def word (i : Int) : Word := BitVec.ofInt 64 i

end Sys2Proof
end

