-- ==== Sys2Proof/Machine/Bytes.lean ====
section
/-! DEFINITION. The byte numbering of a word, in one place (20_memory.md R43, R48): byte 0 is the least significant. -/

namespace Sys2Proof.Machine

/-- Byte `m` of a word: its bits 8m + 7 to 8m (R43). -/
def byteOf (v : Word) (m : Nat) : Byte :=
  v.extractLsb' (8 * m) 8

/-- The eight bytes of a word in increasing byte address (R43). -/
def leBytes (v : Word) : List Byte :=
  [byteOf v 0, byteOf v 1, byteOf v 2, byteOf v 3, byteOf v 4, byteOf v 5, byteOf v 6, byteOf v 7]

/-- The word made of eight bytes given in increasing byte address (R278). -/
def wordOfBytes (b0 b1 b2 b3 b4 b5 b6 b7 : Byte) : Word :=
  b7 ++ b6 ++ b5 ++ b4 ++ b3 ++ b2 ++ b1 ++ b0

/-- `v` with byte `m` replaced by `b`: `(v AND NOT (0xFF << 8m)) OR (zext_8(b) << 8m)` (R188). -/
def setByte (v : Word) (m : Nat) (b : Byte) : Word :=
  (v &&& ~~~((0xFF#64) <<< (8 * m))) ||| (b.setWidth 64 <<< (8 * m))

end Sys2Proof.Machine
end

