-- ==== Sys2Proof/Config.lean ====
section
/-! DEFINITION. What is fixed for the machine: the choices an OPEN parameter of 00_scope.md R7 ranges over, the reset
parameters, the syscall ids, and the one free value of the spec, the count the host accepts. The choices taken stand in
Machine/Params.lean. -/

namespace Sys2Proof.Config

/-- What DIV_OVERFLOW ranges over (R7, R105): how −2^63 divided by −1 ends. -/
inductive DivOverflow where
  /-- raises `DivideOverflow` -/
  | fault
  /-- quotient −2^63, remainder 0 -/
  | wrap
deriving DecidableEq, Repr

/-- What SHIFT_OVERSIZE ranges over (R7, R107): how a shift by 64 or more ends. -/
inductive ShiftOversize where
  /-- raises `ShiftFault` -/
  | fault
  /-- the result is 0 -/
  | zero
  /-- the count is taken modulo 64 -/
  | mask6
deriving DecidableEq, Repr

/-- ACC_RESET (R7, R33; D7: OPEN, default 0). -/
def accReset : Word := 0

/-- PC_RESET (R7, R33; D6). -/
def pcReset : Int := 0

/-- SP_RESET (R7, R33): the empty stack. -/
def spReset : Int := -1

/-- SYSCALL_EXIT (R7, R203). -/
def syscallExit : BitVec 8 := 1

/-- SYSCALL_SLEEP (R7, R203). -/
def syscallSleep : BitVec 8 := 2

/-- SYSCALL_WRITE (R7, R203). -/
def syscallWrite : BitVec 8 := 3

/-- THE FREE VALUE of the spec: which count the host accepts of its `n`-th output request is "a free choice of the host
in [0, L]" (60_exceptions.md R253, D22; 93 U7, `any value`). It has no body; the machine cuts it to the request's length
(`Machine.acceptedCount`). Log entry 8. -/
opaque hostAccepts : Nat → Nat

end Sys2Proof.Config
end

