-- ==== Sys2Proof/Machine/State.lean ====
section
/-! DEFINITION. The state of the CORE (10_state.md), as plain data, and its value after reset. -/

namespace Sys2Proof.Machine

/-! ## Fault records -/

/-- Why the operand stack refuses an access (60_exceptions.md R237). -/
inductive StackReason where
  /-- a push would set sp above STACK_CAP − 1 (R47) -/
  | overflow
  /-- a pop would read a cell below index 0 (R47) -/
  | underflow
  /-- a stack-relative access names a cell outside 0 to sp (R46) -/
  | window
  /-- a read of a cell never written since reset (R27) -/
  | unwritten
  /-- Ret, Push or Pop with a negative count (44_call_stack.md) -/
  | negcount
  /-- StoreSB reads a negative byte offset (R188) -/
  | negbyteoffset
deriving DecidableEq, Repr

/-- A fault kind with the information it records beside the pc (R231 to R240). -/
inductive FaultCause where
  /-- R232: the opcode -/
  | unknownOpcode (op : BitVec 8)
  /-- R233: the syscall id -/
  | unknownSyscall (id : BitVec 8)
  /-- R234: the argument of Sleep -/
  | sleepRange (arg : Int)
  /-- R235: the length asked for and the count accepted -/
  | writeIO (length accepted : Nat)
  /-- R236 -/
  | divideByZero
  /-- R236 -/
  | divideOverflow
  /-- R237: the reason and the index or value -/
  | stackFault (reason : StackReason) (value : Int)
  /-- R238: the word index -/
  | addressFault (a : Int)
  /-- R239: the pc itself, which the record holds -/
  | pcFault
  /-- R240: the operand -/
  | shiftFault (x : Int)
deriving DecidableEq, Repr

/-- A fault record: kind and information, and the index of the faulting word (R230). Its code is computed from the kind
(`FaultCause.code`, R231). -/
structure FaultRecord where
  cause : FaultCause
  pc : Int
deriving DecidableEq, Repr

/-! ## Run status and host events -/

/-- The run status (R29). -/
inductive RunStatus where
  | running
  /-- the normal end with a 64-bit signed exit status -/
  | halted (status : Int)
  /-- the fatal end with a fault record -/
  | fatal (record : FaultRecord)
deriving DecidableEq, Repr

/-- A diagnostic record, its fields only (R251, R252). -/
inductive DiagRecord where
  /-- the run fell off the end (R81) -/
  | fallThrough (acc : Word)
  /-- the Exit syscall (R204) -/
  | exit (acc : Word) (arg : Int)
  /-- a fault (R230) -/
  | fatal (record : FaultRecord)
deriving DecidableEq, Repr

/-- A request the CORE made of the host (R30, R251). -/
inductive HostEvent where
  /-- one diagnostic record (R252) -/
  | diag (record : DiagRecord)
  /-- a byte string handed to the output sink and the count the host returned (R253) -/
  | write (bytes : List Byte) (accepted : Nat)
  /-- a sleep with its duration in milliseconds (R254) -/
  | sleep (ms : Nat)
deriving DecidableEq, Repr

/-! ## The two stores -/

/-- The byte view of the program store (R40, R43): (byte address, byte), addresses strictly rising, no byte equal to
`unlistedByte`. Log entry 3. -/
abbrev Memory := List Host.Cell

/-- What an unlisted byte address of P reads as. This is how a zero byte is held, not a value the model picks: the loader
gives every byte of P a value (R28, R279). Log entry 3. -/
def unlistedByte : Byte := 0

/-- The operand stack: (cell index, word), indices strictly rising, one entry for each cell whose written mark is true
(R26, R27); an unlisted cell has no value (R33, D8). Log entry 4. -/
abbrev CellStore := List (Nat × Word)

/-! ## State -/

/-- The architectural state (R20), and one field of the model's own, `hostTurn`. -/
structure State where
  /-- the accumulator (R21) -/
  acc : Word
  /-- the program counter, a word index (R23); exact integer, log entry 2 -/
  pc : Int
  /-- the stack pointer, the index of the top cell, −1 when empty (R25); exact integer, log entry 2 -/
  sp : Int
  /-- N, the number of words of the program store (R28, R34) -/
  progLen : Nat
  /-- the program store P in its byte view (R28, R43) -/
  prog : Memory
  /-- the operand stack S with its written marks (R26, R27) -/
  stack : CellStore
  /-- the run status (R29) -/
  status : RunStatus
  /-- the host event log, oldest first (R30) -/
  log : List HostEvent
  /-- THE MODEL'S OWN: how many output requests the host has answered, the argument of the free value
  `Config.hostAccepts` (R253; log entry 8) -/
  hostTurn : Nat
deriving DecidableEq, Repr

/-- Why a step has no next state. -/
inductive Fault where
  /-- Raised by `step` alone, when the run status is Halted or Fatal: "final and no step leaves them" (R29, D33; 93 S22,
  `stuck`). Safe: the CORE takes no step there either. A fault of the spec's is no Outcome of this kind: it is the next
  state whose status is `fatal` (R230; log entry 1). -/
  | notRunning
deriving DecidableEq, Repr

/-- Why an instruction has no meaning. -/
inductive Refusal where
  /-- Raised by an arm of `exec` for an instruction not modelled yet. Safe: nothing is claimed of it. No arm uses it. -/
  | notModelled (mnemonic : String)
deriving DecidableEq, Repr

/-- The machine right after reset (R33), with no image loaded: N = 0, "a valid program" (R277). A program comes from
the loader (`Machine.load`), before reset (R270; log entry 5). -/
def State.reset : State where
  acc := Config.accReset
  pc := Config.pcReset
  sp := Config.spReset
  progLen := 0
  prog := []
  stack := []
  status := .running
  log := []
  hostTurn := 0

end Sys2Proof.Machine
end

