-- ==== Sys2Proof/Machine/Cells.lean ====
section
/-! DEFINITION. Keyed lists in canonical form, and the two stores held in them: the bytes of the program store and the
cells of the operand stack. -/

namespace Sys2Proof.Machine

/-! ## Keyed lists -/

/-- The entry at a key. -/
def Cells.find? {α : Type} : List (Nat × α) → Nat → Option α
  | [], _ => none
  | (k, v) :: rest, a => if a = k then some v else Cells.find? rest a

/-- The list with the entry at `a` set to `v`, keys kept rising. -/
def Cells.put {α : Type} : List (Nat × α) → Nat → α → List (Nat × α)
  | [], a, v => [(a, v)]
  | (k, w) :: rest, a, v =>
    if a < k then (a, v) :: (k, w) :: rest
    else if a = k then (a, v) :: rest
    else (k, w) :: Cells.put rest a v

/-- The list without any entry at `a`. -/
def Cells.drop {α : Type} : List (Nat × α) → Nat → List (Nat × α)
  | [], _ => []
  | (k, w) :: rest, a => if a = k then Cells.drop rest a else (k, w) :: Cells.drop rest a

/-- Keys strictly rising: no repeats, one order. -/
abbrev Cells.rising {α : Type} (cells : List (Nat × α)) : Prop :=
  cells.Pairwise fun c d => c.1 < d.1

/-! ## The bytes of the program store -/

/-- The canonical form of the program store: addresses strictly rising, no listed byte reads as an unlisted one. -/
abbrev Memory.wf (m : Memory) : Prop :=
  Cells.rising m ∧ ∀ c ∈ m, c.2 ≠ unlistedByte

/-- One byte of the program store. -/
def Memory.readByte (m : Memory) (a : Nat) : Byte :=
  (Cells.find? m a).getD unlistedByte

/-- Write one byte; the value an unlisted address reads as is held by listing nothing. -/
def Memory.writeByte (m : Memory) (a : Nat) (b : Byte) : Memory :=
  if b = unlistedByte then Cells.drop m a else Cells.put m a b

/-- Write bytes at increasing addresses. -/
def Memory.writeBytes (m : Memory) (a : Nat) : List Byte → Memory
  | [] => m
  | b :: rest => Memory.writeBytes (Memory.writeByte m a b) (a + 1) rest

/-- The word at word index `a`: bytes 8a to 8a + 7, least significant first (R43). -/
def Memory.readWord (m : Memory) (a : Nat) : Word :=
  wordOfBytes (m.readByte (8 * a)) (m.readByte (8 * a + 1)) (m.readByte (8 * a + 2)) (m.readByte (8 * a + 3))
    (m.readByte (8 * a + 4)) (m.readByte (8 * a + 5)) (m.readByte (8 * a + 6)) (m.readByte (8 * a + 7))

/-- Set the word at word index `a` (R45). -/
def Memory.writeWord (m : Memory) (a : Nat) (v : Word) : Memory :=
  m.writeBytes (8 * a) (leBytes v)

/-- A store filled with bytes from address `a` on, in order (R279). -/
def Memory.ofBytes : Nat → List Byte → Memory
  | _, [] => []
  | a, b :: rest => if b = unlistedByte then Memory.ofBytes (a + 1) rest else (a, b) :: Memory.ofBytes (a + 1) rest

end Sys2Proof.Machine
end

