-- ==== Sys2Proof/Machine/Params.lean ====
section
/-! DEFINITION. The parameters of 00_scope.md R7 at the value this hardware takes (for an OPEN one, the default of
92_eei_decisions.md). The operations that depend on an OPEN behaviour take it as an argument; the meanings pass these. -/

namespace Sys2Proof.Machine

/-- STACK_CAP, the cells of the operand stack (R7, R26; D10; log entry 11). -/
def stackCap : Int := 256

/-- SLEEP_MIN in milliseconds, inclusive (R7, R205). -/
def sleepMin : Int := 0

/-- SLEEP_MAX in milliseconds, inclusive (R7, R205). -/
def sleepMax : Int := 1000

/-- DIV_OVERFLOW (R7, R105; D16: OPEN, default `fault`; log entry 10). -/
def divOverflow : Config.DivOverflow := .fault

/-- SHIFT_OVERSIZE (R7, R107; D17: OPEN, default `fault`; log entry 10). -/
def shiftOversize : Config.ShiftOversize := .fault

/-- INCRS_MIRRORS_ACC (R7, R186; D18: OPEN, default false; log entry 10). -/
def incrsMirrorsAcc : Bool := false

/-- FATAL_STATUS, the process exit status of a fatal run (R7, R230). -/
def fatalStatus : Int := 1

end Sys2Proof.Machine
end

