-- ==== Sys2Proof/Machine/Ops.lean ====
section
/-! DEFINITION. The named operations over the state: how a step ends, the accesses to the two stores with their checks,
and the requests to the host. Every meaning is written over these. -/

namespace Sys2Proof.Machine

/-- What a step answers. -/
abbrev Answer := Host.Outcome State Fault Refusal

/-- A checked computation: a value, or the cause of the fault the first failing check raises (00_scope.md R12). -/
abbrev Checked (α : Type) := Except FaultCause α

/-! ## Faults (60_exceptions.md) -/

/-- The code of a fault kind (R231; D39). -/
def FaultCause.code : FaultCause → Nat
  | .unknownOpcode _ => 1
  | .unknownSyscall _ => 2
  | .sleepRange _ => 3
  | .writeIO _ _ => 4
  | .divideByZero => 5
  | .divideOverflow => 6
  | .stackFault _ _ => 7
  | .addressFault _ => 8
  | .pcFault => 9
  | .shiftFault _ => 10

/-- Append one event to the host event log (R30). -/
def State.emit (s : State) (e : HostEvent) : State :=
  { s with log := s.log ++ [e] }

/-- TAKING A FAULT (R230, R243): the record of the cause and the current pc goes to the diagnostic sink and becomes the
run status. Nothing else changes; there is no handler and no return (R244). -/
def State.faulted (s : State) (cause : FaultCause) : State :=
  { s.emit (.diag (.fatal ⟨cause, s.pc⟩)) with status := .fatal ⟨cause, s.pc⟩ }

/-- `raise F(info)` (R13, R230). -/
def raise (cause : FaultCause) (s : State) : Answer :=
  .next (s.faulted cause)

/-- The process exit status of a run's outcome (R256); a running machine has none. -/
def RunStatus.exitStatus : RunStatus → Option Int
  | .running => none
  | .halted status => some status
  | .fatal _ => some fatalStatus

/-! ## Ends of a step (00_scope.md R13) -/

/-- `next`: the default advance (40_dispatch.md R87). -/
def advance (s : State) : Answer :=
  .next { s with pc := s.pc + 1 }

/-- `jump(t)`: an explicit target, computed exactly and not checked in this step (R88, R23). -/
def jumpTo (target : Int) (s : State) : Answer :=
  .next { s with pc := target }

/-- `halt(s)` after its diagnostic record (R204, R81). -/
def haltWith (record : DiagRecord) (status : Int) (s : State) : Answer :=
  .next { s.emit (.diag record) with status := .halted status }

/-- Go on with the value of a checked computation, or raise the fault of its first failing check, the state unchanged
(R90). -/
def orRaise {α : Type} (s : State) (c : Checked α) (go : α → Answer) : Answer :=
  match c with
  | .ok v => go v
  | .error cause => raise cause s

/-- Write the accumulator (R21). -/
def State.setAcc (s : State) (v : Word) : State :=
  { s with acc := v }

/-! ## The program store (20_memory.md R44, R45) -/

/-- The check on every data access to P: `0 ≤ a < N` (R44). -/
def State.inProg (s : State) (a : Int) : Bool :=
  0 ≤ a && a < s.progLen

/-- `MemRead(P, a, 8)` (R45). -/
def State.readProg (s : State) (a : Int) : Checked Word :=
  if s.inProg a then .ok (s.prog.readWord a.toNat) else .error (.addressFault a)

/-- `MemWrite(P, a, 8, v)` (R45). -/
def State.writeProg (s : State) (a : Int) (v : Word) : Checked State :=
  if s.inProg a then .ok { s with prog := s.prog.writeWord a.toNat v } else .error (.addressFault a)

/-! ## The operand stack (20_memory.md R46, R47) -/

/-- The cell at an index: its word when its written mark is true (R26, R27). -/
def State.cell? (s : State) (i : Int) : Option Word :=
  if i < 0 then none else Cells.find? s.stack i.toNat

/-- Set a cell and its written mark, with no check (R27); the index is 0 or more wherever this is used. -/
def State.putCell (s : State) (i : Int) (v : Word) : State :=
  { s with stack := Cells.put s.stack i.toNat v }

/-- A read of a cell whose mark is false raises `StackFault(unwritten)` (R27). -/
def State.readMarked (s : State) (i : Int) : Checked Word :=
  match s.cell? i with
  | some v => .ok v
  | none => .error (.stackFault .unwritten i)

/-- The live window: `0 ≤ i ≤ sp` (R46). -/
def State.inWindow (s : State) (i : Int) : Bool :=
  0 ≤ i && i ≤ s.sp

/-- `MemRead(S, i, 8)`: the window, then the mark (R46). -/
def State.readCell (s : State) (i : Int) : Checked Word :=
  if s.inWindow i then s.readMarked i else .error (.stackFault .window i)

/-- `MemWrite(S, i, 8, v)`: the window, then the write, which sets the mark (R46). -/
def State.writeCell (s : State) (i : Int) (v : Word) : Checked State :=
  if s.inWindow i then .ok (s.putCell i v) else .error (.stackFault .window i)

/-- A count of cells is not negative (44_call_stack.md; D12). -/
def checkCount (n : Int) : Checked Unit :=
  if n < 0 then .error (.stackFault .negcount n) else .ok ()

/-- A push may make `top` the index of the top cell (R47). -/
def checkRoom (top : Int) : Checked Unit :=
  if top > stackCap - 1 then .error (.stackFault .overflow top) else .ok ()

/-- A pop may read down to the cell at `i` (R47). -/
def checkDepth (i : Int) : Checked Unit :=
  if i < 0 then .error (.stackFault .underflow i) else .ok ()

/-- `n` zero cells from index `first` upward, lowest first (R162). -/
def State.putZeros (s : State) (first : Int) : Nat → State
  | 0 => s
  | n + 1 => (s.putCell first 0).putZeros (first + 1) n

/-! ## Byte view of either store (20_memory.md R43) -/

/-- The two address spaces (R40). -/
inductive Space where
  | program
  | stack
deriving DecidableEq, Repr

/-- `MemRead(X, a, 8)`. -/
def State.readWordOf (s : State) : Space → Int → Checked Word
  | .program, a => s.readProg a
  | .stack, i => s.readCell i

/-- `MemRead(X, b, 1)`: the byte b mod 8 of word b div 8, with that word's checks (R12, R43). -/
def State.readByteOf (s : State) (space : Space) (b : Int) : Checked Byte :=
  match s.readWordOf space (b / 8) with
  | .ok v => .ok (byteOf v (b % 8).toNat)
  | .error cause => .error cause

/-- `n` bytes from byte address `b` in increasing address order; the first word that fails its check is the one the
fault names (R209, R210). -/
def State.readBytesOf (s : State) (space : Space) (b : Int) : Nat → Checked (List Byte)
  | 0 => .ok []
  | n + 1 =>
    match s.readByteOf space b with
    | .error cause => .error cause
    | .ok v =>
      match s.readBytesOf space (b + 1) n with
      | .error cause => .error cause
      | .ok rest => .ok (v :: rest)

/-! ## The host (60_exceptions.md R250 to R254) -/

/-- The count the host accepts of a request of `length` bytes: a free choice in [0, length] (R253, D22; log entry 8). -/
def State.acceptedCount (s : State) (length : Nat) : Nat :=
  min (Config.hostAccepts s.hostTurn) length

/-- `host.write(bytes)` answered with `accepted`: the request and the count go to the log (R30, R253). -/
def State.hostWrote (s : State) (bytes : List Byte) (accepted : Nat) : State :=
  { s.emit (.write bytes accepted) with hostTurn := s.hostTurn + 1 }

/-- `host.sleep(ms)`: the host always returns; only the request is recorded (R254). -/
def State.hostSlept (s : State) (ms : Nat) : State :=
  s.emit (.sleep ms)

end Sys2Proof.Machine
end

