-- ==== Sys2Proof/Machine/Operands.lean ====
section
/-! DEFINITION. What an instruction's operand names: a value, a count, a program-relative address, a stack-relative
index (30_encoding.md R63 to R69; 20_memory.md R41, R42). -/

namespace Sys2Proof.Machine

/-- A plain operand as a 64-bit value: the 56 bits, sign-extended (R61, R69: immediate value). -/
def immediate (x : BitVec 56) : Word :=
  x.signExtend 64

/-- A `delta` as a 64-bit value: the 8 bits, sign-extended (R65). -/
def deltaWord (delta : BitVec 8) : Word :=
  delta.signExtend 64

/-- `pc + k`, exact, with pc the index of the instruction itself (R41): a jump target, a data address, a string word. -/
def progAddr (s : State) (k : Int) : Int :=
  s.pc + k

/-- `sp − k`, exact, with sp the value before the instruction (R42). -/
def stackIndex (s : State) (k : Int) : Int :=
  s.sp - k

end Sys2Proof.Machine
end

