-- ==== Sys2Proof/Machine/Flags.lean ====
section
/-! DEFINITION. The CORE has no flags, condition codes or predicates (10_state.md R24): a conditional jump tests the
accumulator's value. The three tests, and the ALU (41_immediate_alu.md R105, R107, R109), which writes no flag. -/

namespace Sys2Proof.Machine

/-! ## The tests of the conditional jumps (R24) -/

/-- "accumulator ≠ 0" (R120). -/
def State.accNonZero (s : State) : Bool :=
  s.acc.toInt ≠ 0

/-- "accumulator < 0" (R121). -/
def State.accNegative (s : State) : Bool :=
  s.acc.toInt < 0

/-- "accumulator ≥ 0" (R122). -/
def State.accNonNegative (s : State) : Bool :=
  s.acc.toInt ≥ 0

/-! ## The ALU (R109) -/

/-- `a +64 b` (R11; D15). -/
def aluAdd (a b : Word) : Word :=
  word (a.toInt + b.toInt)

/-- `a −64 b` (R11; D15). -/
def aluSub (a b : Word) : Word :=
  word (a.toInt - b.toInt)

/-- `a *64 b`, the low 64 bits of the signed product (R11; D15). -/
def aluMul (a b : Word) : Word :=
  word (a.toInt * b.toInt)

/-- `divcheck(a, b)` (R105, R109). -/
def divCheck (overflow : Config.DivOverflow) (a b : Word) : Checked Unit :=
  if b.toInt = 0 then .error .divideByZero
  else if a.toInt = -2 ^ 63 ∧ b.toInt = -1 ∧ overflow = .fault then .error .divideOverflow
  else .ok ()

/-- `word(sdiv(a, b))`: the quotient truncated toward zero (R11, R105). -/
def quotient (a b : Word) : Word :=
  word (a.toInt.tdiv b.toInt)

/-- `word(srem(a, b))`: the remainder, with the dividend's sign (R11, R105). -/
def remainder (a b : Word) : Word :=
  word (a.toInt.tmod b.toInt)

/-- `alu(Div, a, b)` (R109). -/
def aluDiv (overflow : Config.DivOverflow) (a b : Word) : Checked Word :=
  match divCheck overflow a b with
  | .error cause => .error cause
  | .ok _ => .ok (quotient a b)

/-- `alu(Mod, a, b)` (R109). -/
def aluMod (overflow : Config.DivOverflow) (a b : Word) : Checked Word :=
  match divCheck overflow a b with
  | .error cause => .error cause
  | .ok _ => .ok (remainder a b)

/-- A shift by 0 to 63, its direction given apart: left, or logical right (R107, R10). -/
def shiftBy (right : Bool) (k : Nat) (a : Word) : Word :=
  if right then a >>> k else a <<< k

/-- The shift of ShiftI: a negative count shifts right logically, another left; 64 or more is `oversize` (R107). -/
def aluShift (oversize : Config.ShiftOversize) (a : Word) (x : Int) : Checked Word :=
  if x.natAbs < 64 then .ok (shiftBy (x < 0) x.natAbs a)
  else
    match oversize with
    | .fault => .error (.shiftFault x)
    | .zero => .ok 0
    | .mask6 => .ok (shiftBy (x < 0) (x.natAbs % 64) a)

end Sys2Proof.Machine
end

