-- ==== Sys2Proof/Machine/CallStack.lean ====
section
/-! DEFINITION. Call, return, push and pop (44_call_stack.md): the only instructions that move the stack pointer. Every
check comes before the first write (R90), in the order of the rule (R91). -/

namespace Sys2Proof.Machine

/-- Write the stack pointer (R25). -/
def State.setSp (s : State) (sp : Int) : State :=
  { s with sp := sp }

/-- Call (R160): push `word(pc + 1)`, jump to `pc + x`. -/
def execCall (x : BitVec 56) (s : State) : Answer :=
  orRaise s (checkRoom (s.sp + 1)) fun _ =>
    jumpTo (progAddr s x.toInt) ((s.putCell (s.sp + 1) (word (s.pc + 1))).setSp (s.sp + 1))

/-- Ret (R161): drop n cells unread, pop the return index. -/
def execRet (x : BitVec 56) (s : State) : Answer :=
  orRaise s (checkCount x.toInt) fun _ =>
    orRaise s (checkDepth (s.sp - x.toInt)) fun _ =>
      orRaise s (s.readMarked (s.sp - x.toInt)) fun t => jumpTo t.toInt (s.setSp (s.sp - x.toInt - 1))

/-- Push (R162): n zero cells, the accumulator on top of them; the whole count is checked first. -/
def execPush (x : BitVec 56) (s : State) : Answer :=
  orRaise s (checkCount x.toInt) fun _ =>
    orRaise s (checkRoom (s.sp + x.toInt + 1)) fun _ =>
      advance (((s.putZeros (s.sp + 1) x.toInt.toNat).putCell (s.sp + x.toInt + 1) s.acc).setSp (s.sp + x.toInt + 1))

/-- Pop (R163): the accumulator from the top, n cells beneath it dropped unread. -/
def execPop (x : BitVec 56) (s : State) : Answer :=
  orRaise s (checkCount x.toInt) fun _ =>
    orRaise s (checkDepth (s.sp - x.toInt)) fun _ =>
      orRaise s (s.readMarked s.sp) fun v => advance ((s.setAcc v).setSp (s.sp - 1 - x.toInt))

end Sys2Proof.Machine
end

