-- ==== Sys2Proof/Machine/ImmediateAlu.lean ====
section
/-! DEFINITION. Immediate and ALU instructions (41_immediate_alu.md): LoadI AddI SubI MulI DivI ModI ShiftI AndI. -/

namespace Sys2Proof.Machine

/-- LoadI (R100). -/
def execLoadI (x : BitVec 56) (s : State) : Answer :=
  advance (s.setAcc (immediate x))

/-- AddI (R101). -/
def execAddI (x : BitVec 56) (s : State) : Answer :=
  advance (s.setAcc (aluAdd s.acc (immediate x)))

/-- SubI (R102): the accumulator is the minuend. -/
def execSubI (x : BitVec 56) (s : State) : Answer :=
  advance (s.setAcc (aluSub s.acc (immediate x)))

/-- MulI (R103). -/
def execMulI (x : BitVec 56) (s : State) : Answer :=
  advance (s.setAcc (aluMul s.acc (immediate x)))

/-- DivI (R104): the accumulator is the dividend. -/
def execDivI (x : BitVec 56) (s : State) : Answer :=
  orRaise s (aluDiv divOverflow s.acc (immediate x)) fun q => advance (s.setAcc q)

/-- ModI (R106): the accumulator is the dividend. -/
def execModI (x : BitVec 56) (s : State) : Answer :=
  orRaise s (aluMod divOverflow s.acc (immediate x)) fun r => advance (s.setAcc r)

/-- ShiftI (R107). -/
def execShiftI (x : BitVec 56) (s : State) : Answer :=
  orRaise s (aluShift shiftOversize s.acc x.toInt) fun v => advance (s.setAcc v)

/-- AndI (R108). -/
def execAndI (x : BitVec 56) (s : State) : Answer :=
  advance (s.setAcc (s.acc &&& immediate x))

end Sys2Proof.Machine
end

