-- ==== Sys2Proof/Machine/Jumps.lean ====
section
/-! DEFINITION. Relative jumps (42_jumps.md): JNZ JNEG JPOS JumpR. A target is checked by the next step (R124). -/

namespace Sys2Proof.Machine

/-- Jump to `pc + x` if the condition holds, else advance (R124). -/
def jumpIf (taken : Bool) (x : BitVec 56) (s : State) : Answer :=
  if taken then jumpTo (progAddr s x.toInt) s else advance s

/-- JNZ (R120). -/
def execJnz (x : BitVec 56) (s : State) : Answer :=
  jumpIf s.accNonZero x s

/-- JNEG (R121). -/
def execJneg (x : BitVec 56) (s : State) : Answer :=
  jumpIf s.accNegative x s

/-- JPOS (R122). -/
def execJpos (x : BitVec 56) (s : State) : Answer :=
  jumpIf s.accNonNegative x s

/-- JumpR (R123). -/
def execJumpR (x : BitVec 56) (s : State) : Answer :=
  jumpTo (progAddr s x.toInt) s

end Sys2Proof.Machine
end

