-- ==== Sys2Proof/Machine/ProgramRelative.lean ====
section
/-! DEFINITION. Program-relative loads, arithmetic and stores (43_program_relative.md): LoadR AddR SubR MulR DivR StoreR
IncrR. Each reaches P at `pc + offset` and raises `AddressFault` outside [0, N) before any write (R44). -/

namespace Sys2Proof.Machine

/-- Read P[pc + x], combine it with the accumulator, write the accumulator, advance. -/
def accFromProg (f : Word → Word → Word) (x : BitVec 56) (s : State) : Answer :=
  orRaise s (s.readProg (progAddr s x.toInt)) fun v => advance (s.setAcc (f s.acc v))

/-- LoadR (R140). -/
def execLoadR (x : BitVec 56) (s : State) : Answer :=
  accFromProg (fun _ v => v) x s

/-- AddR (R141). -/
def execAddR (x : BitVec 56) (s : State) : Answer :=
  accFromProg aluAdd x s

/-- SubR (R142): the accumulator is the minuend. -/
def execSubR (x : BitVec 56) (s : State) : Answer :=
  accFromProg aluSub x s

/-- MulR (R143). -/
def execMulR (x : BitVec 56) (s : State) : Answer :=
  accFromProg aluMul x s

/-- DivR (R144): the address is checked before the divisor. -/
def execDivR (x : BitVec 56) (s : State) : Answer :=
  orRaise s (s.readProg (progAddr s x.toInt)) fun d =>
    orRaise s (aluDiv divOverflow s.acc d) fun q => advance (s.setAcc q)

/-- StoreR (R145). -/
def execStoreR (x : BitVec 56) (s : State) : Answer :=
  orRaise s (s.writeProg (progAddr s x.toInt) s.acc) advance

/-- IncrR (R146): the word and the accumulator take the sum. -/
def execIncrR (delta : BitVec 8) (off : BitVec 48) (s : State) : Answer :=
  orRaise s (s.readProg (progAddr s off.toInt)) fun v =>
    orRaise s (s.writeProg (progAddr s off.toInt) (aluAdd v (deltaWord delta))) fun t =>
      advance (t.setAcc (aluAdd v (deltaWord delta)))

end Sys2Proof.Machine
end

