-- ==== Sys2Proof/Machine/StackRelative.lean ====
section
/-! DEFINITION. Stack-relative loads, arithmetic and stores (45_stack_relative.md): LoadS StoreS AddS SubS MulS DivS IncrS
IdivS StoreSB. Each reaches S at `sp − offset`, inside the live window (R46), and leaves the stack pointer alone. -/

namespace Sys2Proof.Machine

/-- Read S[sp − x], combine it with the accumulator, write the accumulator, advance. -/
def accFromCell (f : Word → Word → Word) (x : BitVec 56) (s : State) : Answer :=
  orRaise s (s.readCell (stackIndex s x.toInt)) fun v => advance (s.setAcc (f s.acc v))

/-- LoadS (R180). -/
def execLoadS (x : BitVec 56) (s : State) : Answer :=
  accFromCell (fun _ v => v) x s

/-- StoreS (R181). -/
def execStoreS (x : BitVec 56) (s : State) : Answer :=
  orRaise s (s.writeCell (stackIndex s x.toInt) s.acc) advance

/-- AddS (R182). -/
def execAddS (x : BitVec 56) (s : State) : Answer :=
  accFromCell aluAdd x s

/-- SubS (R183): the accumulator is the minuend. -/
def execSubS (x : BitVec 56) (s : State) : Answer :=
  accFromCell aluSub x s

/-- MulS (R184). -/
def execMulS (x : BitVec 56) (s : State) : Answer :=
  accFromCell aluMul x s

/-- DivS (R185): the stack faults come before the division's. -/
def execDivS (x : BitVec 56) (s : State) : Answer :=
  orRaise s (s.readCell (stackIndex s x.toInt)) fun d =>
    orRaise s (aluDiv divOverflow s.acc d) fun q => advance (s.setAcc q)

/-- Increment a cell in place, the accumulator taking the sum too if `mirrors` (R186). -/
def incrCell (mirrors : Bool) (delta : BitVec 8) (off : BitVec 48) (s : State) : Answer :=
  orRaise s (s.readCell (stackIndex s off.toInt)) fun v =>
    orRaise s (s.writeCell (stackIndex s off.toInt) (aluAdd v (deltaWord delta))) fun t =>
      advance (if mirrors then t.setAcc (aluAdd v (deltaWord delta)) else t)

/-- IncrS (R186). -/
def execIncrS (delta : BitVec 8) (off : BitVec 48) (s : State) : Answer :=
  incrCell incrsMirrorsAcc delta off s

/-- IdivS (R187): the cell is the dividend and takes the quotient; the accumulator is the divisor and takes the
remainder. -/
def execIdivS (x : BitVec 56) (s : State) : Answer :=
  orRaise s (s.readCell (stackIndex s x.toInt)) fun cur =>
    orRaise s (aluDiv divOverflow cur s.acc) fun q =>
      orRaise s (aluMod divOverflow cur s.acc) fun r =>
        orRaise s (s.writeCell (stackIndex s x.toInt) q) fun t => advance (t.setAcc r)

/-- The byte offset of StoreSB is not negative (R188; D23). -/
def checkByteOffset (bo : Int) : Checked Unit :=
  if bo < 0 then .error (.stackFault .negbyteoffset bo) else .ok ()

/-- The cell StoreSB stores into: `sp − (base − (bo div 8))` (R188; D4). -/
def byteTarget (s : State) (base : BitVec 48) (bo : Int) : Int :=
  stackIndex s (base.toInt - bo / 8)

/-- StoreSB (R188): byte `bo mod 8` of the target cell takes the accumulator's low byte. -/
def execStoreSB (slot : BitVec 8) (base : BitVec 48) (s : State) : Answer :=
  orRaise s (s.readCell (stackIndex s slot.toNat)) fun offset =>
    orRaise s (checkByteOffset offset.toInt) fun _ =>
      orRaise s (s.readCell (byteTarget s base offset.toInt)) fun old =>
        orRaise s
          (s.writeCell (byteTarget s base offset.toInt) (setByte old (offset.toInt % 8).toNat (byteOf s.acc 0))) advance

end Sys2Proof.Machine
end

