-- ==== Sys2Proof/Machine/Syscall.lean ====
section
/-! DEFINITION. The syscall multiplexer, Exit, Sleep, Write and the byte-string writer (46_syscall.md). -/

namespace Sys2Proof.Machine

/-- Exit (R204): the accumulator and the argument go to the diagnostic sink, and the run halts with the argument; pc keeps
the index of the syscall word (D24). -/
def exitCall (arg : BitVec 48) (s : State) : Answer :=
  haltWith (.exit s.acc arg.toInt) arg.toInt s

/-- The range check of Sleep (R205), made before any sleep occurs. -/
def checkSleep (ms : Int) : Checked Unit :=
  if ms < sleepMin ∨ ms > sleepMax then .error (.sleepRange ms) else .ok ()

/-- Sleep (R205, R206): the accumulator is not written (D19). -/
def sleepCall (arg : BitVec 48) (s : State) : Answer :=
  orRaise s (checkSleep arg.toInt) fun _ => advance (s.hostSlept arg.toInt.toNat)

/-- The string's base word (R207): `pc + arg` in P for Sys, `sp − arg` in S for SysS. -/
def stringWord (space : Space) (arg : BitVec 48) (s : State) : Int :=
  match space with
  | .program => progAddr s arg.toInt
  | .stack => stackIndex s arg.toInt

/-- The end of a Write whose bytes the host has accepted `accepted` of (R210, R211): all of them, or −1 in the
accumulator and then the one fault that follows a write. -/
def finishWrite (bytes : List Byte) (accepted : Nat) (s : State) : Answer :=
  if accepted < bytes.length then
    raise (.writeIO bytes.length accepted) ((s.hostWrote bytes accepted).setAcc (word (-1)))
  else advance ((s.hostWrote bytes accepted).setAcc (word bytes.length))

/-- Write (R208 to R211) of the string that starts at byte 8w of a store: the length prefix, then its payload, every word
checked before any byte is handed over; an empty string makes no request. -/
def writeCall (space : Space) (w : Int) (s : State) : Answer :=
  orRaise s (s.readByteOf space (8 * w)) fun length =>
    if length.toNat = 0 then advance (s.setAcc 0)
    else
      orRaise s (s.readBytesOf space (8 * w + 1) length.toNat) fun bytes =>
        finishWrite bytes (s.acceptedCount bytes.length) s

/-- The multiplexer (R202): the id is examined first. -/
def syscall (space : Space) (id : BitVec 8) (arg : BitVec 48) (s : State) : Answer :=
  if id = Config.syscallExit then exitCall arg s
  else if id = Config.syscallSleep then sleepCall arg s
  else if id = Config.syscallWrite then writeCall space (stringWord space arg s) s
  else raise (.unknownSyscall id) s

/-- Sys (R200). -/
def execSys (id : BitVec 8) (arg : BitVec 48) (s : State) : Answer :=
  syscall .program id arg s

/-- SysS (R201). -/
def execSysS (id : BitVec 8) (arg : BitVec 48) (s : State) : Answer :=
  syscall .stack id arg s

/-- Sys with id Exit (R204). -/
def execSysExit (arg : BitVec 48) (s : State) : Answer :=
  syscall .program Config.syscallExit arg s

/-- Sys with id Sleep (R205, R206). -/
def execSysSleep (arg : BitVec 48) (s : State) : Answer :=
  syscall .program Config.syscallSleep arg s

/-- Sys with id Write (R207 to R211). -/
def execSysWrite (arg : BitVec 48) (s : State) : Answer :=
  syscall .program Config.syscallWrite arg s

/-- SysS with id Exit (R204). -/
def execSysSExit (arg : BitVec 48) (s : State) : Answer :=
  syscall .stack Config.syscallExit arg s

/-- SysS with id Sleep (R205, R206). -/
def execSysSSleep (arg : BitVec 48) (s : State) : Answer :=
  syscall .stack Config.syscallSleep arg s

/-- SysS with id Write (R207 to R211). -/
def execSysSWrite (arg : BitVec 48) (s : State) : Answer :=
  syscall .stack Config.syscallWrite arg s

end Sys2Proof.Machine
end

