-- ==== Sys2Proof/Syntax.lean ====
section
/-! DEFINITION. The whole instruction set as syntax: one constructor for each row of spec/opcode_table.json, and the 34
mnemonics that own an opcode value (30_encoding.md R66, R68). -/

namespace Sys2Proof

/-- An instruction. Its fields are those of its format (R68): `x` the 56-bit operand of format I, `delta` and `off` of
format INC (R65), `slot` and `base` of format SB (R67), `id` and `arg` of format SYS (R64). Each rule says whether a field
is read signed. The six rows of the table for Sys and SysS with a known syscall id have constructors of their own; `sys`
and `sysS` carry any id. -/
inductive Instr where
  /-- LoadI (R100): accumulator := operand -/
  | loadI (x : BitVec 56)
  /-- AddI (R101): acc + x -/
  | addI (x : BitVec 56)
  /-- SubI (R102): acc − x -/
  | subI (x : BitVec 56)
  /-- MulI (R103): acc × x -/
  | mulI (x : BitVec 56)
  /-- DivI (R104): acc / x -/
  | divI (x : BitVec 56)
  /-- ModI (R106): acc mod x -/
  | modI (x : BitVec 56)
  /-- ShiftI (R107): shift by a signed count -/
  | shiftI (x : BitVec 56)
  /-- AndI (R108): acc AND x -/
  | andI (x : BitVec 56)
  /-- JNZ (R120): jump if acc ≠ 0 -/
  | jnz (x : BitVec 56)
  /-- JNEG (R121): jump if acc < 0 -/
  | jneg (x : BitVec 56)
  /-- JPOS (R122): jump if acc ≥ 0 -/
  | jpos (x : BitVec 56)
  /-- JumpR (R123): jump always -/
  | jumpR (x : BitVec 56)
  /-- LoadR (R140): acc := P[pc + x] -/
  | loadR (x : BitVec 56)
  /-- AddR (R141): acc + P[pc + x] -/
  | addR (x : BitVec 56)
  /-- SubR (R142): acc − P[pc + x] -/
  | subR (x : BitVec 56)
  /-- MulR (R143): acc × P[pc + x] -/
  | mulR (x : BitVec 56)
  /-- DivR (R144): acc / P[pc + x] -/
  | divR (x : BitVec 56)
  /-- StoreR (R145): P[pc + x] := acc -/
  | storeR (x : BitVec 56)
  /-- IncrR (R146): P[pc + off] += delta -/
  | incrR (delta : BitVec 8) (off : BitVec 48)
  /-- Call (R160): push pc + 1, jump -/
  | call (x : BitVec 56)
  /-- Ret (R161): drop n cells, return -/
  | ret (x : BitVec 56)
  /-- Push (R162): n zero cells, then acc -/
  | push (x : BitVec 56)
  /-- Pop (R163): acc, then drop n cells -/
  | pop (x : BitVec 56)
  /-- LoadS (R180): acc := S[sp − x] -/
  | loadS (x : BitVec 56)
  /-- StoreS (R181): S[sp − x] := acc -/
  | storeS (x : BitVec 56)
  /-- AddS (R182): acc + S[sp − x] -/
  | addS (x : BitVec 56)
  /-- SubS (R183): acc − S[sp − x] -/
  | subS (x : BitVec 56)
  /-- MulS (R184): acc × S[sp − x] -/
  | mulS (x : BitVec 56)
  /-- DivS (R185): acc / S[sp − x] -/
  | divS (x : BitVec 56)
  /-- IncrS (R186): S[sp − off] += delta -/
  | incrS (delta : BitVec 8) (off : BitVec 48)
  /-- IdivS (R187): S[sp − x] and acc := quotient and remainder by acc -/
  | idivS (x : BitVec 56)
  /-- StoreSB (R188): one byte of a stack word := acc[7:0] -/
  | storeSB (slot : BitVec 8) (base : BitVec 48)
  /-- Sys (R200): Sys with any id: the multiplexer; well formed for ids other than 1, 2, 3 -/
  | sys (id : BitVec 8) (arg : BitVec 48)
  /-- SysS (R201): SysS with any id: the multiplexer; well formed for ids other than 1, 2, 3 -/
  | sysS (id : BitVec 8) (arg : BitVec 48)
  /-- Sys.Exit (R204): Sys with id 1 -/
  | sysExit (arg : BitVec 48)
  /-- Sys.Sleep (R205): Sys with id 2 -/
  | sysSleep (arg : BitVec 48)
  /-- Sys.Write (R207): Sys with id 3 -/
  | sysWrite (arg : BitVec 48)
  /-- SysS.Exit (R204): SysS with id 1 -/
  | sysSExit (arg : BitVec 48)
  /-- SysS.Sleep (R205): SysS with id 2 -/
  | sysSSleep (arg : BitVec 48)
  /-- SysS.Write (R207): SysS with id 3 -/
  | sysSWrite (arg : BitVec 48)
deriving DecidableEq, Repr

/-- The 34 mnemonics of the opcode map, in the order of the catalog (R66). -/
inductive Mnemonic where
  | loadI | addI | subI | mulI | divI | modI | shiftI | andI
  | jnz | jneg | jpos | jumpR | loadR | addR | subR | mulR
  | divR | storeR | incrR | call | ret | push | pop | loadS
  | storeS | addS | subS | mulS | divS | incrS | idivS | storeSB
  | sys | sysS
deriving DecidableEq, Repr

/-- All 34, in catalog order. -/
def Mnemonic.all : List Mnemonic :=
  [.loadI, .addI, .subI, .mulI, .divI, .modI, .shiftI, .andI,
   .jnz, .jneg, .jpos, .jumpR, .loadR, .addR, .subR, .mulR,
   .divR, .storeR, .incrR, .call, .ret, .push, .pop, .loadS,
   .storeS, .addS, .subS, .mulS, .divS, .incrS, .idivS, .storeSB,
   .sys, .sysS]

/-- The mnemonic whose opcode value an instruction's word carries; the syscall rows carry that of Sys or SysS (R79). -/
def Instr.mnemonic : Instr → Mnemonic
  | .loadI _ => .loadI
  | .addI _ => .addI
  | .subI _ => .subI
  | .mulI _ => .mulI
  | .divI _ => .divI
  | .modI _ => .modI
  | .shiftI _ => .shiftI
  | .andI _ => .andI
  | .jnz _ => .jnz
  | .jneg _ => .jneg
  | .jpos _ => .jpos
  | .jumpR _ => .jumpR
  | .loadR _ => .loadR
  | .addR _ => .addR
  | .subR _ => .subR
  | .mulR _ => .mulR
  | .divR _ => .divR
  | .storeR _ => .storeR
  | .incrR _ _ => .incrR
  | .call _ => .call
  | .ret _ => .ret
  | .push _ => .push
  | .pop _ => .pop
  | .loadS _ => .loadS
  | .storeS _ => .storeS
  | .addS _ => .addS
  | .subS _ => .subS
  | .mulS _ => .mulS
  | .divS _ => .divS
  | .incrS _ _ => .incrS
  | .idivS _ => .idivS
  | .storeSB _ _ => .storeSB
  | .sys _ _ => .sys
  | .sysS _ _ => .sysS
  | .sysExit _ => .sys
  | .sysSleep _ => .sys
  | .sysWrite _ => .sys
  | .sysSExit _ => .sysS
  | .sysSSleep _ => .sysS
  | .sysSWrite _ => .sysS

end Sys2Proof
end

