-- ==== Sys2Proof/Machine/Dispatch.lean ====
section
/-! DEFINITION. The instruction rules by constructor (40_dispatch.md R84, R86): one arm for each row of the opcode table. -/

namespace Sys2Proof.Machine

def exec (i : Instr) (s : State) : Host.Outcome State Fault Refusal :=
  match i with
  | .loadI x => Sys2Proof.Machine.execLoadI x s
  | .addI x => Sys2Proof.Machine.execAddI x s
  | .subI x => Sys2Proof.Machine.execSubI x s
  | .mulI x => Sys2Proof.Machine.execMulI x s
  | .divI x => Sys2Proof.Machine.execDivI x s
  | .modI x => Sys2Proof.Machine.execModI x s
  | .shiftI x => Sys2Proof.Machine.execShiftI x s
  | .andI x => Sys2Proof.Machine.execAndI x s
  | .jnz x => Sys2Proof.Machine.execJnz x s
  | .jneg x => Sys2Proof.Machine.execJneg x s
  | .jpos x => Sys2Proof.Machine.execJpos x s
  | .jumpR x => Sys2Proof.Machine.execJumpR x s
  | .loadR x => Sys2Proof.Machine.execLoadR x s
  | .addR x => Sys2Proof.Machine.execAddR x s
  | .subR x => Sys2Proof.Machine.execSubR x s
  | .mulR x => Sys2Proof.Machine.execMulR x s
  | .divR x => Sys2Proof.Machine.execDivR x s
  | .storeR x => Sys2Proof.Machine.execStoreR x s
  | .incrR delta off => Sys2Proof.Machine.execIncrR delta off s
  | .call x => Sys2Proof.Machine.execCall x s
  | .ret x => Sys2Proof.Machine.execRet x s
  | .push x => Sys2Proof.Machine.execPush x s
  | .pop x => Sys2Proof.Machine.execPop x s
  | .loadS x => Sys2Proof.Machine.execLoadS x s
  | .storeS x => Sys2Proof.Machine.execStoreS x s
  | .addS x => Sys2Proof.Machine.execAddS x s
  | .subS x => Sys2Proof.Machine.execSubS x s
  | .mulS x => Sys2Proof.Machine.execMulS x s
  | .divS x => Sys2Proof.Machine.execDivS x s
  | .incrS delta off => Sys2Proof.Machine.execIncrS delta off s
  | .idivS x => Sys2Proof.Machine.execIdivS x s
  | .storeSB slot base => Sys2Proof.Machine.execStoreSB slot base s
  | .sys id arg => Sys2Proof.Machine.execSys id arg s
  | .sysS id arg => Sys2Proof.Machine.execSysS id arg s
  | .sysExit arg => Sys2Proof.Machine.execSysExit arg s
  | .sysSleep arg => Sys2Proof.Machine.execSysSleep arg s
  | .sysWrite arg => Sys2Proof.Machine.execSysWrite arg s
  | .sysSExit arg => Sys2Proof.Machine.execSysSExit arg s
  | .sysSSleep arg => Sys2Proof.Machine.execSysSSleep arg s
  | .sysSWrite arg => Sys2Proof.Machine.execSysSWrite arg s

end Sys2Proof.Machine
end

