-- ==== Sys2Proof/WellFormed.lean ====
section
/-! DEFINITION. Which instructions are well formed. Every field is as wide as its place in the word, so the only check is
that `sys` and `sysS` do not carry an id that has a constructor of its own (30_encoding.md R79; log entry 9). -/

namespace Sys2Proof

/-- Is the id one of the three the multiplexer knows (R203)? -/
def isSyscallId (id : BitVec 8) : Bool :=
  id = Config.syscallExit || id = Config.syscallSleep || id = Config.syscallWrite

/-- A well-formed instruction is one that some word stands for. -/
def WellFormed : Instr → Bool
  | .loadI _ => true
  | .addI _ => true
  | .subI _ => true
  | .mulI _ => true
  | .divI _ => true
  | .modI _ => true
  | .shiftI _ => true
  | .andI _ => true
  | .jnz _ => true
  | .jneg _ => true
  | .jpos _ => true
  | .jumpR _ => true
  | .loadR _ => true
  | .addR _ => true
  | .subR _ => true
  | .mulR _ => true
  | .divR _ => true
  | .storeR _ => true
  | .incrR _ _ => true
  | .call _ => true
  | .ret _ => true
  | .push _ => true
  | .pop _ => true
  | .loadS _ => true
  | .storeS _ => true
  | .addS _ => true
  | .subS _ => true
  | .mulS _ => true
  | .divS _ => true
  | .incrS _ _ => true
  | .idivS _ => true
  | .storeSB _ _ => true
  | .sys id _ => !isSyscallId id
  | .sysS id _ => !isSyscallId id
  | .sysExit _ => true
  | .sysSleep _ => true
  | .sysWrite _ => true
  | .sysSExit _ => true
  | .sysSSleep _ => true
  | .sysSWrite _ => true

end Sys2Proof
end

