-- ==== Sys2Proof/Decode.lean ====
section
/-! DEFINITION. From words and bytes to instructions and back (30_encoding.md): the fields of the word, the opcode map, the
decoder, total and refusing by name, the encoder, and the assembler's range checks. -/

namespace Sys2Proof

/-! ## The fields of a word -/

/-- `w[7:0]` (R61). -/
def decodeOpcode (w : Word) : BitVec 8 :=
  w.extractLsb' 0 8

/-- `w >>s 8`, the operand as a 64-bit value (R61). -/
def decodeOperand (w : Word) : Word :=
  w.sshiftRight 8

/-- The plain operand's 56 bits, word bits 63:8 (R60, R68). -/
def operandField (w : Word) : BitVec 56 :=
  w.extractLsb' 8 56

/-- Operand bits 7:0, word bits 15:8: `id` (R64), `delta` (R65), `slot` (R67). -/
def lowField (w : Word) : BitVec 8 :=
  w.extractLsb' 8 8

/-- Operand bits 55:8, word bits 63:16: `arg` (R64), `off` (R65), `base` (R67). -/
def highField (w : Word) : BitVec 48 :=
  w.extractLsb' 16 48

/-! ## The opcode map -/

/-- OPCODE_OF at its default, the order of the catalog from 1 (R66; D1: OPEN; log entry 12). -/
def opcodeOf : Mnemonic → BitVec 8
  | .loadI => 1
  | .addI => 2
  | .subI => 3
  | .mulI => 4
  | .divI => 5
  | .modI => 6
  | .shiftI => 7
  | .andI => 8
  | .jnz => 9
  | .jneg => 10
  | .jpos => 11
  | .jumpR => 12
  | .loadR => 13
  | .addR => 14
  | .subR => 15
  | .mulR => 16
  | .divR => 17
  | .storeR => 18
  | .incrR => 19
  | .call => 20
  | .ret => 21
  | .push => 22
  | .pop => 23
  | .loadS => 24
  | .storeS => 25
  | .addS => 26
  | .subS => 27
  | .mulS => 28
  | .divS => 29
  | .incrS => 30
  | .idivS => 31
  | .storeSB => 32
  | .sys => 33
  | .sysS => 34

/-- The mnemonic that owns an opcode value, if one does (R70, R80). -/
def mnemonicOf (op : BitVec 8) : Option Mnemonic :=
  Mnemonic.all.find? fun m => opcodeOf m = op

/-! ## Decoding -/

/-- The one reason a word is refused: its opcode value belongs to no mnemonic (R70, R72). -/
structure UnknownOpcode where
  op : BitVec 8
deriving DecidableEq, Repr

/-- Why the decoder refuses a byte sequence. -/
inductive DecodeRefusal where
  /-- the first word's opcode value belongs to no mnemonic (R70) -/
  | unknownOpcode (op : BitVec 8)
  /-- fewer than the eight bytes of a word are left (R73) -/
  | truncated (left : Nat)
deriving DecidableEq, Repr

/-- Sys with an id: the constructor of the syscall the id selects, or `sys` for an unknown id (R79, R203). -/
def sysInstr (id : BitVec 8) (arg : BitVec 48) : Instr :=
  if id = Config.syscallExit then .sysExit arg
  else if id = Config.syscallSleep then .sysSleep arg
  else if id = Config.syscallWrite then .sysWrite arg
  else .sys id arg

/-- SysS with an id: the constructor of the syscall the id selects, or `sysS` for an unknown id (R79, R203). -/
def sysSInstr (id : BitVec 8) (arg : BitVec 48) : Instr :=
  if id = Config.syscallExit then .sysSExit arg
  else if id = Config.syscallSleep then .sysSSleep arg
  else if id = Config.syscallWrite then .sysSWrite arg
  else .sysS id arg

/-- The instruction a word with mnemonic `m` stands for, its operand split by the format of `m` (R68, R83). -/
def instrOf (m : Mnemonic) (w : Word) : Instr :=
  match m with
  | .loadI => .loadI (operandField w)
  | .addI => .addI (operandField w)
  | .subI => .subI (operandField w)
  | .mulI => .mulI (operandField w)
  | .divI => .divI (operandField w)
  | .modI => .modI (operandField w)
  | .shiftI => .shiftI (operandField w)
  | .andI => .andI (operandField w)
  | .jnz => .jnz (operandField w)
  | .jneg => .jneg (operandField w)
  | .jpos => .jpos (operandField w)
  | .jumpR => .jumpR (operandField w)
  | .loadR => .loadR (operandField w)
  | .addR => .addR (operandField w)
  | .subR => .subR (operandField w)
  | .mulR => .mulR (operandField w)
  | .divR => .divR (operandField w)
  | .storeR => .storeR (operandField w)
  | .incrR => .incrR (lowField w) (highField w)
  | .call => .call (operandField w)
  | .ret => .ret (operandField w)
  | .push => .push (operandField w)
  | .pop => .pop (operandField w)
  | .loadS => .loadS (operandField w)
  | .storeS => .storeS (operandField w)
  | .addS => .addS (operandField w)
  | .subS => .subS (operandField w)
  | .mulS => .mulS (operandField w)
  | .divS => .divS (operandField w)
  | .incrS => .incrS (lowField w) (highField w)
  | .idivS => .idivS (operandField w)
  | .storeSB => .storeSB (lowField w) (highField w)
  | .sys => sysInstr (lowField w) (highField w)
  | .sysS => sysSInstr (lowField w) (highField w)

/-- Decode one word. Every word of a known opcode decodes (R72); an unknown opcode is refused by name (R70). -/
def decode (w : Word) : Except UnknownOpcode Instr :=
  match mnemonicOf (decodeOpcode w) with
  | none => .error ⟨decodeOpcode w⟩
  | some m => .ok (instrOf m w)

/-- Decode the first instruction of a byte sequence, and what is left after its eight bytes (R73, R278). -/
def decodeBytes : List Byte → Except DecodeRefusal (Instr × List Byte)
  | b0 :: b1 :: b2 :: b3 :: b4 :: b5 :: b6 :: b7 :: rest =>
    match decode (Machine.wordOfBytes b0 b1 b2 b3 b4 b5 b6 b7) with
    | .ok i => .ok (i, rest)
    | .error e => .error (.unknownOpcode e.op)
  | short => .error (.truncated short.length)

/-! ## Encoding -/

/-- `encode(op, x)` of R62: the operand in bits 63:8 and the opcode in bits 7:0; an operand outside [−2^55, 2^55 − 1]
has no encoding. -/
def encodeWord (op : BitVec 8) (x : Int) : Option Word :=
  if -2 ^ 55 ≤ x ∧ x < 2 ^ 55 then some ((word x <<< 8) ||| op.setWidth 64) else none

/-- A word of format I: operand, opcode (R68). -/
def wordI (m : Mnemonic) (x : BitVec 56) : Word :=
  x ++ opcodeOf m

/-- A word of format INC, SB or SYS: the 48-bit field, the 8-bit field, opcode (R64, R65, R67, R68). -/
def wordPacked (m : Mnemonic) (high : BitVec 48) (low : BitVec 8) : Word :=
  high ++ low ++ opcodeOf m

/-- The word of an instruction. -/
def encode : Instr → Word
  | .loadI x => wordI .loadI x
  | .addI x => wordI .addI x
  | .subI x => wordI .subI x
  | .mulI x => wordI .mulI x
  | .divI x => wordI .divI x
  | .modI x => wordI .modI x
  | .shiftI x => wordI .shiftI x
  | .andI x => wordI .andI x
  | .jnz x => wordI .jnz x
  | .jneg x => wordI .jneg x
  | .jpos x => wordI .jpos x
  | .jumpR x => wordI .jumpR x
  | .loadR x => wordI .loadR x
  | .addR x => wordI .addR x
  | .subR x => wordI .subR x
  | .mulR x => wordI .mulR x
  | .divR x => wordI .divR x
  | .storeR x => wordI .storeR x
  | .incrR delta off => wordPacked .incrR off delta
  | .call x => wordI .call x
  | .ret x => wordI .ret x
  | .push x => wordI .push x
  | .pop x => wordI .pop x
  | .loadS x => wordI .loadS x
  | .storeS x => wordI .storeS x
  | .addS x => wordI .addS x
  | .subS x => wordI .subS x
  | .mulS x => wordI .mulS x
  | .divS x => wordI .divS x
  | .incrS delta off => wordPacked .incrS off delta
  | .idivS x => wordI .idivS x
  | .storeSB slot base => wordPacked .storeSB base slot
  | .sys id arg => wordPacked .sys arg id
  | .sysS id arg => wordPacked .sysS arg id
  | .sysExit arg => wordPacked .sys arg Config.syscallExit
  | .sysSleep arg => wordPacked .sys arg Config.syscallSleep
  | .sysWrite arg => wordPacked .sys arg Config.syscallWrite
  | .sysSExit arg => wordPacked .sysS arg Config.syscallExit
  | .sysSSleep arg => wordPacked .sysS arg Config.syscallSleep
  | .sysSWrite arg => wordPacked .sysS arg Config.syscallWrite

/-- The bytes of an instruction in increasing byte address (R43, R278). -/
def encodeBytes (i : Instr) : List Byte :=
  Machine.leBytes (encode i)

/-! ## The assembler's range checks (R74) -/

/-- A signed field of `n` bits, refused outside [−2^(n−1), 2^(n−1) − 1]. -/
def signedField (n : Nat) (x : Int) : Option (BitVec n) :=
  if -2 ^ (n - 1) ≤ x ∧ x < 2 ^ (n - 1) then some (BitVec.ofInt n x) else none

/-- An unsigned field of `n` bits, refused outside [0, 2^n − 1]. -/
def unsignedField (n : Nat) (x : Int) : Option (BitVec n) :=
  if 0 ≤ x ∧ x < 2 ^ n then some (BitVec.ofInt n x) else none

/-- `Mnemonic x`: format I. -/
def asmI (mk : BitVec 56 → Instr) (x : Int) : Option Instr :=
  (signedField 56 x).map mk

/-- `IncrR off, delta` and `IncrS off, delta`: format INC. -/
def asmINC (mk : BitVec 8 → BitVec 48 → Instr) (off delta : Int) : Option Instr := do
  let o ← signedField 48 off
  let d ← signedField 8 delta
  return mk d o

/-- `StoreSB base, slot`: format SB. -/
def asmSB (base slot : Int) : Option Instr := do
  let b ← signedField 48 base
  let k ← unsignedField 8 slot
  return .storeSB k b

/-- `Sys id, arg`: format SYS. -/
def asmSys (id arg : Int) : Option Instr := do
  let a ← signedField 48 arg
  let k ← unsignedField 8 id
  return sysInstr k a

/-- `SysS id, arg`: format SYS. -/
def asmSysS (id arg : Int) : Option Instr := do
  let a ← signedField 48 arg
  let k ← unsignedField 8 id
  return sysSInstr k a

/-- The pseudo-instruction `Exit arg` for `Sys Exit, arg` (R75). -/
def asmExit (arg : Int) : Option Instr :=
  asmSys 1 arg

/-! ## The host's question -/

/-- What the decoder reads from an instruction of `nbits` bits given as a number, its higher bits zero: the word is laid
out in its bytes as the hardware stores it (R278) and handed to `decodeBytes`. -/
def decodeTableWord (nbits w : Nat) : Option Instr :=
  match decodeBytes (Machine.leBytes (BitVec.ofNat 64 (w % 2 ^ nbits))) with
  | .ok (i, _) => some i
  | .error _ => none

end Sys2Proof
end

