-- ==== Sys2Proof/Machine/Fetch.lean ====
section
/-! DEFINITION. The parts of a step before an instruction runs (40_dispatch.md R80 to R83): the two range tests of the pc,
the end by falling off the end, and the fetch. -/

namespace Sys2Proof.Machine

/-- `int(pc) ≥ N` (R81). -/
def State.pastEnd (s : State) : Bool :=
  s.pc ≥ s.progLen

/-- `int(pc) < 0` (R82). -/
def State.beforeStart (s : State) : Bool :=
  s.pc < 0

/-- The end by falling off the end (R81): a record with the accumulator, status 0. -/
def fallThrough (s : State) : Answer :=
  haltWith (.fallThrough s.acc) 0 s

/-- The word at the pc, fetched from the same array the data accesses reach (R52, R83). -/
def State.fetchWord (s : State) : Word :=
  s.prog.readWord s.pc.toNat

/-- The fault of a word the decoder refuses (R85). -/
def decodeFault (refusal : UnknownOpcode) : FaultCause :=
  .unknownOpcode refusal.op

end Sys2Proof.Machine
end

