-- ==== Sys2Proof/Machine/Step.lean ====
section
/-! DEFINITION. One step of the dispatch loop (40_dispatch.md R80), and a state whose next step runs a given word. -/

namespace Sys2Proof.Machine

/-- One step (R80): none when the run has ended; else the two range tests of the pc, fetch, decode, execute. -/
def step (s : State) : Host.Outcome State Fault Refusal :=
  match s.status with
  | .halted _ => .fault .notRunning
  | .fatal _ => .fault .notRunning
  | .running =>
    if s.pastEnd then fallThrough s
    else if s.beforeStart then raise .pcFault s
    else
      match decode s.fetchWord with
      | .ok i => exec i s
      | .error e => raise (decodeFault e) s

/-- `s` with a word in P where the next step fetches it: the pc if it names a word, else index 0; P long enough to hold
it; the run going on. It stands for the loader (log entry 5). -/
def State.withFetchWord (s : State) (nbits w : Nat) : State :=
  { s with
    pc := s.pc.toNat
    progLen := max s.progLen (s.pc.toNat + 1)
    prog := s.prog.writeWord s.pc.toNat (BitVec.ofNat 64 (w % 2 ^ nbits))
    status := .running }

end Sys2Proof.Machine
end

