-- ==== Sys2Proof/Machine/Loader.lean ====
section
/-! DEFINITION. The boot path (70_reset_and_hazards.md R270 to R281): from an image to the state after reset with its
program in P, or to a load error. -/

namespace Sys2Proof.Machine

/-- MAGIC, the eight header bytes (00_scope.md R7, R275). -/
def magic : List Byte :=
  [0x01, 0x47, 0x52, 0x4F, 0x4C, 0x20, 0x56, 0x4D]

/-- The load errors (R280, R281). -/
inductive LoadError where
  /-- header mismatch (R276) -/
  | badMagic
  /-- the length after the header is no multiple of 8 (R277) -/
  | sizeMismatch
  /-- the source delivers fewer bytes than its size -/
  | shortRead
  /-- P cannot be created -/
  | allocFailure
  /-- the image cannot be opened (R281, which names no kind: the name is log entry 13) -/
  | openFailure
deriving DecidableEq, Repr

/-- What the loader is given: the image's size, the bytes the source delivers, and whether P can be created. -/
structure ImageSource where
  size : Nat
  bytes : List Byte
  canAllocate : Bool
deriving DecidableEq, Repr

/-- An image delivered whole to a loader that can create P. -/
def ImageSource.whole (bytes : List Byte) : ImageSource :=
  ⟨bytes.length, bytes, true⟩

/-- What a load ends in (R270, R280). -/
inductive LoadOutcome where
  /-- reset, with the program in P -/
  | loaded (s : State)
  /-- no reset, no step, P not created -/
  | loadError (kind : LoadError)
deriving DecidableEq, Repr

/-- The state after reset with a program of bytes in P (R33, R278, R279): N words, each filled in file order. -/
def State.resetWith (program : List Byte) : State :=
  { State.reset with progLen := program.length / 8, prog := Memory.ofBytes 0 program }

/-- Load an image that could be opened (R275 to R280). Two points are the model's choice, DESIGN CHOICE, log entry 13: the
errors of one image are looked for in the order of R280's list; and a source that delivers fewer than eight bytes of an
image of eight or more, all agreeing with MAGIC, is no header mismatch, since no byte R276 compares differs, so that it
ends in `sizeMismatch` or `shortRead`. -/
def load (src : ImageSource) : LoadOutcome :=
  if src.size < 8 ∨ src.bytes.take 8 ≠ magic.take src.bytes.length then .loadError .badMagic
  else if (src.size - 8) % 8 ≠ 0 then .loadError .sizeMismatch
  else if src.bytes.length < src.size then .loadError .shortRead
  else if !src.canAllocate then .loadError .allocFailure
  else .loaded (State.resetWith ((src.bytes.take src.size).drop 8))

/-- The load phase (R270): nothing is given where the image cannot be opened, "a load error with status 1 like those of
rule R280" (R281). -/
def boot : Option ImageSource → LoadOutcome
  | none => .loadError .openFailure
  | some src => load src

/-- The diagnostic records of a load: one for a load error (R280). -/
def LoadOutcome.diagnostics : LoadOutcome → List LoadError
  | .loaded _ => []
  | .loadError kind => [kind]

/-- The process exit status a load error gives (R256, R280); a loaded program has none yet. -/
def LoadOutcome.exitStatus : LoadOutcome → Option Int
  | .loaded _ => none
  | .loadError _ => some 1

end Sys2Proof.Machine
end

