-- ==== Sys2Proof/Safety.lean ====
section
/-! DEFINITION. The terms claims use: what can be seen of a state, what leaves it alone, how an instruction ends, which
instructions may write what, the invariants, and what a safe step is. -/

namespace Sys2Proof.Machine

/-! ## Observations -/

/-- The word at index `a` of P, for `0 ≤ a < N` (R28). -/
def State.progWord? (s : State) (a : Int) : Option Word :=
  if 0 ≤ a ∧ a < s.progLen then some (s.prog.readWord a.toNat) else none

/-- The value of a cell of the live window whose written mark is true (R27, R46). -/
def State.liveCell? (s : State) (i : Int) : Option Word :=
  if 0 ≤ i ∧ i ≤ s.sp then s.cell? i else none

/-- The fault record of a cause in a state (R230). -/
def State.record (s : State) (cause : FaultCause) : FaultRecord :=
  ⟨cause, s.pc⟩

/-- The instruction takes the fault and changes nothing but the status and the log (R90, R230). -/
def Raises (i : Instr) (s : State) (cause : FaultCause) : Prop :=
  exec i s = .next { s with log := s.log ++ [.diag (.fatal (s.record cause))], status := .fatal (s.record cause) }

/-- Every word with the opcode of mnemonic `m` is the instruction `mk` of its bits 63:8 (format I, R68). -/
def FormatI (m : Mnemonic) (mk : BitVec 56 → Instr) : Prop :=
  ∀ w : Word, w.extractLsb' 0 8 = opcodeOf m → decode w = .ok (mk (w.extractLsb' 8 56))

/-! ## Frames -/

/-- Only the accumulator changed, and the pc advanced by one. -/
def OnlyAcc (s t : State) : Prop :=
  t = { s with acc := t.acc, pc := s.pc + 1 }

/-- Word `a` of P holds `v` in `t`, and every byte of P outside it reads as in `s`. -/
def ProgBut (s t : State) (a : Int) (v : Word) : Prop :=
  t.progWord? a = some v ∧ ∀ b : Nat, (b : Int) / 8 ≠ a → t.prog.readByte b = s.prog.readByte b

/-- Cell `i` of S holds `v` in `t`, and every other cell, written or not, is as in `s`. -/
def StackBut (s t : State) (i : Int) (v : Word) : Prop :=
  t.cell? i = some v ∧ ∀ j : Int, j ≠ i → t.cell? j = s.cell? j

/-! ## The end of a Write -/

/-- The end of a Write of some bytes, whichever count the host accepts (D22; the count is the free value of log entry 8,
in [0, L]): all of them, the accumulator holding their number; or fewer, the accumulator −1, and WriteIO. -/
def WriteOutcome (s t : State) (bytes : List Byte) : Prop :=
  s.acceptedCount bytes.length ≤ bytes.length ∧
  (s.acceptedCount bytes.length = bytes.length →
    t = { s with
          acc := word bytes.length, pc := s.pc + 1, hostTurn := s.hostTurn + 1
          log := s.log ++ [.write bytes bytes.length] }) ∧
  (s.acceptedCount bytes.length < bytes.length →
    t = { s with
          acc := word (-1), hostTurn := s.hostTurn + 1
          log := s.log ++
            [.write bytes (s.acceptedCount bytes.length),
              .diag (.fatal (s.record (.writeIO bytes.length (s.acceptedCount bytes.length))))]
          status := .fatal (s.record (.writeIO bytes.length (s.acceptedCount bytes.length))) })

/-! ## Arithmetic -/

/-- `q` and `r` are the quotient truncated toward zero and the remainder with the dividend's sign (R105; the sign is PRESUMED,
log entry 15). -/
def IsDivision (a b q r : Int) : Prop :=
  q * b + r = a ∧ r.natAbs < b.natAbs ∧ (0 ≤ a → 0 ≤ r) ∧ (a ≤ 0 → r ≤ 0)

/-- The pair whose quotient does not fit (R105). -/
def DivisionOverflows (a b : Int) : Prop :=
  a = -2 ^ 63 ∧ b = -1

/-! ## Several steps -/

/-- `k` steps, stopping where one has no next state. -/
def steps : Nat → State → Answer
  | 0, s => .next s
  | k + 1, s =>
    match step s with
    | .next t => steps k t
    | .fault r => .fault r
    | .refused r => .refused r

/-- The seven operations of the left fold of R110. -/
inductive FoldOp where
  | load | add | sub | mul | div | mod | and
deriving DecidableEq, Repr

/-- The instruction of a fold operation. -/
def FoldOp.instr : FoldOp → BitVec 56 → Instr
  | .load => .loadI
  | .add => .addI
  | .sub => .subI
  | .mul => .mulI
  | .div => .divI
  | .mod => .modI
  | .and => .andI

/-- A division by zero, or one whose quotient does not fit. -/
abbrev divisionFaults (a b : Int) : Prop :=
  b = 0 ∨ (a = -2 ^ 63 ∧ b = -1)

/-- A fold operation on the accumulator: exact, then wrapped; none where a division faults (R110, R105). -/
def FoldOp.apply : FoldOp → Word → BitVec 56 → Option Word
  | .load, _, x => some (word x.toInt)
  | .add, acc, x => some (word (acc.toInt + x.toInt))
  | .sub, acc, x => some (word (acc.toInt - x.toInt))
  | .mul, acc, x => some (word (acc.toInt * x.toInt))
  | .div, acc, x => if divisionFaults acc.toInt x.toInt then none else some (word (acc.toInt.tdiv x.toInt))
  | .mod, acc, x => if divisionFaults acc.toInt x.toInt then none else some (word (acc.toInt.tmod x.toInt))
  | .and, acc, x => some (acc &&& x.signExtend 64)

/-- The left fold of operations over an accumulator (R110). -/
def foldAcc : Word → List (FoldOp × BitVec 56) → Option Word
  | acc, [] => some acc
  | acc, (op, x) :: rest =>
    match op.apply acc x with
    | some v => foldAcc v rest
    | none => none

/-! ## Which instruction may write what -/

/-- The instructions that may write the accumulator (R22). -/
def writesAcc : Instr → Bool
  | .loadI _ => true
  | .addI _ => true
  | .subI _ => true
  | .mulI _ => true
  | .divI _ => true
  | .modI _ => true
  | .shiftI _ => true
  | .andI _ => true
  | .jnz _ => false
  | .jneg _ => false
  | .jpos _ => false
  | .jumpR _ => false
  | .loadR _ => true
  | .addR _ => true
  | .subR _ => true
  | .mulR _ => true
  | .divR _ => true
  | .storeR _ => false
  | .incrR _ _ => true
  | .call _ => false
  | .ret _ => false
  | .push _ => false
  | .pop _ => true
  | .loadS _ => true
  | .storeS _ => false
  | .addS _ => true
  | .subS _ => true
  | .mulS _ => true
  | .divS _ => true
  | .incrS _ _ => false
  | .idivS _ => true
  | .storeSB _ _ => false
  | .sys id _ => id = Config.syscallWrite
  | .sysS id _ => id = Config.syscallWrite
  | .sysExit _ => false
  | .sysSleep _ => false
  | .sysWrite _ => true
  | .sysSExit _ => false
  | .sysSSleep _ => false
  | .sysSWrite _ => true

/-- The instructions that may write the stack pointer (R25). -/
def writesSp : Instr → Bool
  | .loadI _ => false
  | .addI _ => false
  | .subI _ => false
  | .mulI _ => false
  | .divI _ => false
  | .modI _ => false
  | .shiftI _ => false
  | .andI _ => false
  | .jnz _ => false
  | .jneg _ => false
  | .jpos _ => false
  | .jumpR _ => false
  | .loadR _ => false
  | .addR _ => false
  | .subR _ => false
  | .mulR _ => false
  | .divR _ => false
  | .storeR _ => false
  | .incrR _ _ => false
  | .call _ => true
  | .ret _ => true
  | .push _ => true
  | .pop _ => true
  | .loadS _ => false
  | .storeS _ => false
  | .addS _ => false
  | .subS _ => false
  | .mulS _ => false
  | .divS _ => false
  | .incrS _ _ => false
  | .idivS _ => false
  | .storeSB _ _ => false
  | .sys _ _ => false
  | .sysS _ _ => false
  | .sysExit _ => false
  | .sysSleep _ => false
  | .sysWrite _ => false
  | .sysSExit _ => false
  | .sysSSleep _ => false
  | .sysSWrite _ => false

/-- The instructions that may write the program store (R50). -/
def writesProg : Instr → Bool
  | .loadI _ => false
  | .addI _ => false
  | .subI _ => false
  | .mulI _ => false
  | .divI _ => false
  | .modI _ => false
  | .shiftI _ => false
  | .andI _ => false
  | .jnz _ => false
  | .jneg _ => false
  | .jpos _ => false
  | .jumpR _ => false
  | .loadR _ => false
  | .addR _ => false
  | .subR _ => false
  | .mulR _ => false
  | .divR _ => false
  | .storeR _ => true
  | .incrR _ _ => true
  | .call _ => false
  | .ret _ => false
  | .push _ => false
  | .pop _ => false
  | .loadS _ => false
  | .storeS _ => false
  | .addS _ => false
  | .subS _ => false
  | .mulS _ => false
  | .divS _ => false
  | .incrS _ _ => false
  | .idivS _ => false
  | .storeSB _ _ => false
  | .sys _ _ => false
  | .sysS _ _ => false
  | .sysExit _ => false
  | .sysSleep _ => false
  | .sysWrite _ => false
  | .sysSExit _ => false
  | .sysSSleep _ => false
  | .sysSWrite _ => false

/-- The instructions that may write a stack cell (R27). -/
def writesStack : Instr → Bool
  | .loadI _ => false
  | .addI _ => false
  | .subI _ => false
  | .mulI _ => false
  | .divI _ => false
  | .modI _ => false
  | .shiftI _ => false
  | .andI _ => false
  | .jnz _ => false
  | .jneg _ => false
  | .jpos _ => false
  | .jumpR _ => false
  | .loadR _ => false
  | .addR _ => false
  | .subR _ => false
  | .mulR _ => false
  | .divR _ => false
  | .storeR _ => false
  | .incrR _ _ => false
  | .call _ => true
  | .ret _ => false
  | .push _ => true
  | .pop _ => false
  | .loadS _ => false
  | .storeS _ => true
  | .addS _ => false
  | .subS _ => false
  | .mulS _ => false
  | .divS _ => false
  | .incrS _ _ => true
  | .idivS _ => true
  | .storeSB _ _ => true
  | .sys _ _ => false
  | .sysS _ _ => false
  | .sysExit _ => false
  | .sysSleep _ => false
  | .sysWrite _ => false
  | .sysSExit _ => false
  | .sysSSleep _ => false
  | .sysSWrite _ => false

/-! ## Invariants -/

/-- P is in canonical form and lists no byte outside its N words (R28). -/
abbrev State.progCanonical (s : State) : Prop :=
  s.prog.wf ∧ ∀ c ∈ s.prog, c.1 < 8 * s.progLen

/-- S is in canonical form and lists no cell outside its STACK_CAP cells (R26). -/
abbrev State.stackCanonical (s : State) : Prop :=
  Cells.rising s.stack ∧ ∀ c ∈ s.stack, (c.1 : Int) < stackCap

/-- The valid range of the stack pointer (R25). -/
abbrev State.spInRange (s : State) : Prop :=
  -1 ≤ s.sp ∧ s.sp ≤ stackCap - 1

/-- Every cell of the live window has its written mark (R27, R46). -/
abbrev State.windowWritten (s : State) : Prop :=
  ∀ k : Nat, k < (s.sp + 1).toNat → (s.cell? k).isSome

/-- The invariant of the two stores and the stack pointer. -/
abbrev State.Inv (s : State) : Prop :=
  s.progCanonical ∧ s.stackCanonical ∧ s.spInRange ∧ s.windowWritten

/-- Is the event a diagnostic record? -/
def HostEvent.isDiag : HostEvent → Bool
  | .diag _ => true
  | .write _ _ => false
  | .sleep _ => false

/-- The log ends in this record, and holds no other. -/
abbrev State.endsWith (s : State) (record : DiagRecord) : Prop :=
  s.log.getLast? = some (.diag record) ∧ ∀ e ∈ s.log.dropLast, e.isDiag = false

/-- The log agrees with the run status (R252): no diagnostic record while running; when the run has ended, exactly one,
the last event, and it is the record of that end. -/
def State.recordsAgree (s : State) : Prop :=
  match s.status with
  | .running => ∀ e ∈ s.log, e.isDiag = false
  | .halted n => s.endsWith (.exit s.acc n) ∨ (n = 0 ∧ s.endsWith (.fallThrough s.acc))
  | .fatal r => s.endsWith (.fatal r)

/-- The pc fits its 64-bit register (R23). -/
abbrev State.pcFits (s : State) : Prop :=
  -2 ^ 63 ≤ s.pc ∧ s.pc < 2 ^ 63

/-! ## Safe steps -/

/-- Has the run ended in a fault (R29)? -/
def State.isFatal (s : State) : Bool :=
  match s.status with
  | .running => false
  | .halted _ => false
  | .fatal _ => true

/-- A safe step: there is one, and it does not end the run in a fault. -/
def SafeStep (s : State) : Prop :=
  ∃ t, step s = .next t ∧ t.isFatal = false

end Sys2Proof.Machine
end

