-- ==== Sys2Proof/Certificates/Slice0/Obligations.lean ====
section
/-! DEFINITION. The statements for the provers. A docstring that names a decision D<n> of spec/92_eei_decisions.md says that
this clause is the spec's own choice and not the source's; one that names a log entry says that it is the model's. -/

open Sys2Proof Sys2Proof.Machine

/-! ## Encoding (30_encoding.md) -/

/-- R61: every word has its opcode in bits 7:0 and its operand, the sign extension of bits 63:8, in [−2^55, 2^55 − 1]; the
two together are the word. -/
def Obligations.DecodeSplitsEveryWord : Prop :=
  ∀ w : Word,
    (decodeOpcode w).toNat = w.toNat % 2 ^ 8 ∧
    decodeOperand w = (w.extractLsb' 8 56).signExtend 64 ∧
    w.toInt = (decodeOperand w).toInt * 2 ^ 8 + (decodeOpcode w).toNat ∧
    -2 ^ 55 ≤ (decodeOperand w).toInt ∧ (decodeOperand w).toInt < 2 ^ 55

/-- R62: an operand in [−2^55, 2^55 − 1] has the encoding operand ++ opcode, from which both come back; an operand outside
has none. -/
def Obligations.EncodeWordRoundTrip : Prop :=
  ∀ (op : BitVec 8) (x : Int),
    (-2 ^ 55 ≤ x → x < 2 ^ 55 → ∃ w, encodeWord op x = some w ∧ w = (word x <<< 8) ||| op.setWidth 64 ∧
      w = (word x).setWidth 56 ++ op ∧ decodeOpcode w = op ∧ (decodeOperand w).toInt = x) ∧
    (x < -2 ^ 55 ∨ 2 ^ 55 ≤ x → encodeWord op x = none)

/-- Every well-formed instruction comes back from its word, and from its bytes with what follows them left over. The opcode
numbers and packed layouts are D1 to D4. -/
def Obligations.DecodeOfEncodeIsTheInstruction : Prop :=
  ∀ (i : Instr) (rest : List Byte), WellFormed i = true →
    decode (encode i) = .ok i ∧ decodeBytes (encodeBytes i ++ rest) = .ok (i, rest)

/-- A word that decodes is the encoding of the instruction it decodes to, which is well formed: no bit of a word is
ignored. D1 to D4. -/
def Obligations.EncodeOfDecodeIsTheWord : Prop :=
  ∀ (w : Word) (i : Instr), decode w = .ok i → encode i = w ∧ WellFormed i = true

/-- The decoder refuses a word, by its opcode, exactly when the opcode is 0 or 35 to 255. D1, D34. -/
def Obligations.DecodeRefusesExactlyTheUnassigned : Prop :=
  ∀ w : Word,
    (decode w = .error ⟨decodeOpcode w⟩ ↔ (decodeOpcode w).toNat = 0 ∨ 35 ≤ (decodeOpcode w).toNat) ∧
    ((∃ i, decode w = .ok i) ↔ 1 ≤ (decodeOpcode w).toNat ∧ (decodeOpcode w).toNat ≤ 34)

/-- The encoding examples of R76, and the two extreme operands of R77, decode to the instruction they stand for. D1 to D4. -/
def Obligations.ExampleWordsDecode : Prop :=
  decode 0x0000000000000501 = .ok (.loadI 5) ∧ decode 0x0000000000000302 = .ok (.addI 3) ∧
  decode 0xFFFFFFFFFFFFFC09 = .ok (.jnz (-4)) ∧ decode 0x000000000005FF13 = .ok (.incrR (-1) 5) ∧
  decode 0x0000000000010020 = .ok (.storeSB 0 1) ∧ decode 0x0000000000080121 = .ok (.sysExit 8) ∧
  decode 0x0000000000010322 = .ok (.sysSWrite 1) ∧
  decode 0x7FFFFFFFFFFFFF01 = .ok (.loadI 0x7FFFFFFFFFFFFF) ∧ decode 0x8000000000000000 = .error ⟨0⟩

/-! ## Reset, boot image and the step (10_state.md, 40_dispatch.md, 70_reset_and_hazards.md) -/

/-- The state after reset: acc 0 (D7), pc 0 (D6), sp −1, no stack cell written (D8), running, an empty log (D29). That no
image is loaded (N = 0) is log entry 5. -/
def Obligations.ResetState : Prop :=
  State.reset.acc = 0 ∧ State.reset.pc = 0 ∧ State.reset.sp = -1 ∧ (∀ i, State.reset.cell? i = none) ∧
  State.reset.status = .running ∧ State.reset.log = [] ∧ State.reset.progLen = 0

/-- A good image of any words, each in little-endian order (D32), loads: N is their number, P holds them in file order, and
everything else is as after reset. -/
def Obligations.LoaderFillsTheProgramStore : Prop :=
  ∀ words : List Word, ∃ s, load (ImageSource.whole (magic ++ words.flatMap leBytes)) = .loaded s ∧
    s = { State.reset with progLen := s.progLen, prog := s.prog } ∧ s.progLen = words.length ∧
    (∀ k : Nat, s.progWord? k = words[k]?) ∧ s.Inv

/-- An image with a wrong or short header, or with a length after the header that is no multiple of 8, is refused with
process status 1 and one diagnostic record; so is a good one that is delivered short or that P cannot be created for. The
order of the four is log entry 13. -/
def Obligations.LoaderRefusesBadImages : Prop :=
  (∀ bytes : List Byte, bytes.take 8 ≠ magic → load (ImageSource.whole bytes) = .loadError .badMagic) ∧
  (∀ body : List Byte, body.length % 8 ≠ 0 → load (ImageSource.whole (magic ++ body)) = .loadError .sizeMismatch) ∧
  (∀ (words : List Word) (n : Nat), 8 ≤ n → n < 8 + 8 * words.length →
    load ⟨8 + 8 * words.length, (magic ++ words.flatMap leBytes).take n, true⟩ = .loadError .shortRead) ∧
  (∀ words : List Word,
    load ⟨8 + 8 * words.length, magic ++ words.flatMap leBytes, false⟩ = .loadError .allocFailure) ∧
  (∀ kind : LoadError, (LoadOutcome.loadError kind).exitStatus = some 1 ∧
    (LoadOutcome.loadError kind).diagnostics = [kind])

/-- A step runs the decoded instruction: with the run going on and the pc naming a word of P, the step is exec of the
instruction that word decodes to, in the same state (R80, R83, R84). -/
def Obligations.StepRunsTheDecodedInstruction : Prop :=
  ∀ (s : State) (w : Word) (i : Instr), s.status = .running → s.progWord? s.pc = some w → decode w = .ok i →
    step s = exec i s

/-- R81: with pc at N or beyond, the step sends one record with the accumulator and halts with status 0, and nothing else
changes. That the first step from reset does so rests on the model's reset state: N = 0, no image loaded (log entry 5), the
accumulator 0 (D7, log entry 6, unsafe) and the pc 0 (D6, log entry 7). -/
def Obligations.StepPastTheEndHaltsWithZero : Prop :=
  (∀ s : State, s.status = .running → s.progLen ≤ s.pc →
    step s = .next { s with log := s.log ++ [.diag (.fallThrough s.acc)], status := .halted 0 }) ∧
  step State.reset = .next { State.reset with log := [.diag (.fallThrough 0)], status := .halted 0 }

/-- A negative pc at the start of a step raises PcFault, and nothing but the status and the log changes (D14). -/
def Obligations.StepAtNegativePcIsFatal : Prop :=
  ∀ s : State, s.status = .running → s.pc < 0 →
    step s = .next { s with log := s.log ++ [.diag (.fatal ⟨.pcFault, s.pc⟩)], status := .fatal ⟨.pcFault, s.pc⟩ }

/-- R85: a word whose low byte is the opcode of no mnemonic raises UnknownOpcode with that byte and the pc, and changes
nothing else. -/
def Obligations.StepOnUnknownOpcodeIsFatal : Prop :=
  ∀ (s : State) (w : Word), s.status = .running → s.progWord? s.pc = some w →
    (∀ m : Mnemonic, opcodeOf m ≠ w.extractLsb' 0 8) →
    step s = .next
      { s with
        log := s.log ++ [.diag (.fatal ⟨.unknownOpcode (w.extractLsb' 0 8), s.pc⟩)]
        status := .fatal ⟨.unknownOpcode (w.extractLsb' 0 8), s.pc⟩ }

/-- A running machine always takes a step: no instruction, word or pc stops it without a next state (faults are next
states, log entry 1). Halted and Fatal are final (D33): no step leaves them; that the model answers the fault notRunning
there is log entry 1. -/
def Obligations.StepsExactlyWhileRunning : Prop :=
  ∀ s : State, (s.status = .running → ∃ t, step s = .next t) ∧ (s.status ≠ .running → step s = .fault .notRunning)

/-! ## Immediate and ALU instructions (41_immediate_alu.md) -/

/-- R100: LoadI has format I, and the accumulator takes the operand, sign-extended to 64 bits. -/
def Obligations.LoadITakesTheOperand : Prop :=
  FormatI .loadI .loadI ∧ ∀ (x : BitVec 56) (s : State),
    exec (.loadI x) s = .next { s with acc := word x.toInt, pc := s.pc + 1 } ∧ (word x.toInt).toInt = x.toInt

/-- AddI, SubI and MulI give the sum, difference (accumulator minus operand) and product, wrapped modulo 2^64 (D15), and
change only the accumulator and the pc. -/
def Obligations.AddSubMulImmediateWrap : Prop :=
  ∀ (x : BitVec 56) (s : State),
    (∃ t, exec (.addI x) s = .next t ∧ OnlyAcc s t ∧ t.acc.toInt = (s.acc.toInt + x.toInt).bmod (2 ^ 64)) ∧
    (∃ t, exec (.subI x) s = .next t ∧ OnlyAcc s t ∧ t.acc.toInt = (s.acc.toInt - x.toInt).bmod (2 ^ 64)) ∧
    (∃ t, exec (.mulI x) s = .next t ∧ OnlyAcc s t ∧ t.acc.toInt = (s.acc.toInt * x.toInt).bmod (2 ^ 64))

/-- DivI and ModI, with a divisor that is not zero and a quotient that fits, give the truncated quotient and the remainder
with the dividend's sign; that sign is general knowledge in the spec itself (93 G1) and PRESUMED in log entry 15. -/
def Obligations.DivideAndRemainderImmediate : Prop :=
  ∀ (x : BitVec 56) (s : State), x.toInt ≠ 0 → ¬DivisionOverflows s.acc.toInt x.toInt →
    ∃ t u, exec (.divI x) s = .next t ∧ exec (.modI x) s = .next u ∧ OnlyAcc s t ∧ OnlyAcc s u ∧
      IsDivision s.acc.toInt x.toInt t.acc.toInt u.acc.toInt

/-- ShiftI by less than 64: left, losing the bits past bit 63; right with zeros entering, for a negative count. By 64 or
more, either way, it raises ShiftFault (D17, the default). -/
def Obligations.ShiftImmediateByCount : Prop :=
  ∀ (x : BitVec 56) (s : State),
    (x.toInt.natAbs < 64 → ∃ t, exec (.shiftI x) s = .next t ∧ OnlyAcc s t ∧
      (0 ≤ x.toInt → t.acc.toNat = s.acc.toNat * 2 ^ x.toInt.natAbs % 2 ^ 64) ∧
      (x.toInt < 0 → t.acc.toNat = s.acc.toNat / 2 ^ x.toInt.natAbs)) ∧
    (64 ≤ x.toInt.natAbs → Raises (.shiftI x) s (.shiftFault x.toInt))

/-- R108: AndI has format I, and keeps a bit of the accumulator exactly where the sign-extended operand has one. -/
def Obligations.AndImmediateIsBitwise : Prop :=
  FormatI .andI .andI ∧ ∀ (x : BitVec 56) (s : State), ∃ t, exec (.andI x) s = .next t ∧ OnlyAcc s t ∧
    ∀ k, k < 64 → t.acc.getLsbD k = (s.acc.getLsbD k && if k < 56 then x.getLsbD k else x.msb)

/-- In DivI, ModI, DivR, DivS and IdivS a zero divisor raises DivideByZero, and −2^63 divided by −1 raises DivideOverflow
(D16, the default); nothing but the status and the log changes (D25). -/
def Obligations.DivisionFaults : Prop :=
  ∀ (x : BitVec 56) (s : State),
    (x.toInt = 0 → Raises (.divI x) s .divideByZero ∧ Raises (.modI x) s .divideByZero) ∧
    (DivisionOverflows s.acc.toInt x.toInt → Raises (.divI x) s .divideOverflow ∧ Raises (.modI x) s .divideOverflow) ∧
    (∀ d, s.progWord? (progAddr s x.toInt) = some d →
      (d.toInt = 0 → Raises (.divR x) s .divideByZero) ∧
      (DivisionOverflows s.acc.toInt d.toInt → Raises (.divR x) s .divideOverflow)) ∧
    (∀ d, s.liveCell? (stackIndex s x.toInt) = some d →
      (d.toInt = 0 → Raises (.divS x) s .divideByZero) ∧
      (DivisionOverflows s.acc.toInt d.toInt → Raises (.divS x) s .divideOverflow)) ∧
    (∀ cur, s.liveCell? (stackIndex s x.toInt) = some cur →
      (s.acc.toInt = 0 → Raises (.idivS x) s .divideByZero) ∧
      (DivisionOverflows cur.toInt s.acc.toInt → Raises (.idivS x) s .divideOverflow))

/-- The alternatives the spec names for the OPEN parameters: an oversize shift gives 0 or shifts by the count modulo 64
(D17), the overflowing division gives −2^63 and 0 (D16), IncrS writes the accumulator too (D18). -/
def Obligations.OpenParameterAlternatives : Prop :=
  (∀ (a : Word) (x : Int), 64 ≤ x.natAbs → aluShift .zero a x = .ok 0 ∧
    (0 ≤ x → aluShift .mask6 a x = .ok (a <<< (x.natAbs % 64))) ∧
    (x < 0 → aluShift .mask6 a x = .ok (a >>> (x.natAbs % 64)))) ∧
  (∀ a b : Word, DivisionOverflows a.toInt b.toInt → aluDiv .wrap a b = .ok (word (-2 ^ 63)) ∧ aluMod .wrap a b = .ok 0) ∧
  (∀ (delta : BitVec 8) (off : BitVec 48) (s : State) (v : Word), s.liveCell? (stackIndex s off.toInt) = some v →
    ∃ t u, incrCell false delta off s = .next t ∧ incrCell true delta off s = .next u ∧
      u = { t with acc := u.acc } ∧ u.cell? (stackIndex s off.toInt) = some u.acc)

/-! ## Jumps (42_jumps.md) -/

/-- R120, R121, R122: JNZ, JNEG and JPOS have format I and jump to pc + x when the accumulator is not zero, negative, zero or positive, and
advance otherwise; of JNEG and JPOS with the same operand exactly one jumps. -/
def Obligations.ConditionalJumps : Prop :=
  FormatI .jnz .jnz ∧ FormatI .jneg .jneg ∧ FormatI .jpos .jpos ∧ ∀ (x : BitVec 56) (s : State),
    exec (.jnz x) s = .next { s with pc := if s.acc.toInt ≠ 0 then s.pc + x.toInt else s.pc + 1 } ∧
    exec (.jneg x) s = .next { s with pc := if s.acc.toInt < 0 then s.pc + x.toInt else s.pc + 1 } ∧
    exec (.jpos x) s = .next { s with pc := if s.acc.toInt ≥ 0 then s.pc + x.toInt else s.pc + 1 } ∧
    ((exec (.jneg x) s = .next { s with pc := s.pc + x.toInt } ∧ exec (.jpos x) s = .next { s with pc := s.pc + 1 }) ∨
     (exec (.jneg x) s = .next { s with pc := s.pc + 1 } ∧ exec (.jpos x) s = .next { s with pc := s.pc + x.toInt }))

/-- R123: JumpR has format I and always jumps. -/
def Obligations.JumpAlways : Prop :=
  FormatI .jumpR .jumpR ∧ ∀ (x : BitVec 56) (s : State), exec (.jumpR x) s = .next { s with pc := s.pc + x.toInt }

/-! ## Program-relative instructions (43_program_relative.md) -/

/-- LoadR, AddR, SubR and MulR combine the accumulator with P[pc + x] (wrapping, D15), and change only the accumulator and
the pc. -/
def Obligations.ProgramRelativeLoadAndArithmetic : Prop :=
  ∀ (x : BitVec 56) (s : State) (v : Word), s.progWord? (progAddr s x.toInt) = some v →
    (∃ t, exec (.loadR x) s = .next t ∧ OnlyAcc s t ∧ t.acc = v) ∧
    (∃ t, exec (.addR x) s = .next t ∧ OnlyAcc s t ∧ t.acc.toInt = (s.acc.toInt + v.toInt).bmod (2 ^ 64)) ∧
    (∃ t, exec (.subR x) s = .next t ∧ OnlyAcc s t ∧ t.acc.toInt = (s.acc.toInt - v.toInt).bmod (2 ^ 64)) ∧
    (∃ t, exec (.mulR x) s = .next t ∧ OnlyAcc s t ∧ t.acc.toInt = (s.acc.toInt * v.toInt).bmod (2 ^ 64))

/-- DivR and DivS divide the accumulator by P[pc + x] and by S[sp − x], truncating toward zero, and change only the
accumulator and the pc. -/
def Obligations.DivisionByAStoredWord : Prop :=
  ∀ (x : BitVec 56) (s : State) (d : Word), d.toInt ≠ 0 → ¬DivisionOverflows s.acc.toInt d.toInt →
    (s.progWord? (progAddr s x.toInt) = some d →
      ∃ t, exec (.divR x) s = .next t ∧ OnlyAcc s t ∧ ∃ r, IsDivision s.acc.toInt d.toInt t.acc.toInt r) ∧
    (s.liveCell? (stackIndex s x.toInt) = some d →
      ∃ t, exec (.divS x) s = .next t ∧ OnlyAcc s t ∧ ∃ r, IsDivision s.acc.toInt d.toInt t.acc.toInt r)

/-- R145: StoreR has format I, sets P[pc + x] to the accumulator and advances; every byte of P outside that word, and everything else, is
unchanged; an address outside [0, N) raises AddressFault. -/
def Obligations.StoreRSetsOneWord : Prop :=
  FormatI .storeR .storeR ∧ ∀ (x : BitVec 56) (s : State),
    (0 ≤ progAddr s x.toInt → progAddr s x.toInt < s.progLen →
      ∃ t, exec (.storeR x) s = .next t ∧ t = { s with prog := t.prog, pc := s.pc + 1 } ∧
        ProgBut s t (progAddr s x.toInt) s.acc) ∧
    (progAddr s x.toInt < 0 ∨ s.progLen ≤ progAddr s x.toInt →
      Raises (.storeR x) s (.addressFault (progAddr s x.toInt)))

/-- IncrR adds the signed delta to P[pc + off] in place (wrapping, D15), the accumulator takes the new value, and every
byte of P outside that word, and everything else but the pc, is unchanged. -/
def Obligations.IncrRAddsInPlace : Prop :=
  ∀ (delta : BitVec 8) (off : BitVec 48) (s : State) (v : Word), s.progWord? (progAddr s off.toInt) = some v →
    ∃ t, exec (.incrR delta off) s = .next t ∧ t = { s with acc := t.acc, prog := t.prog, pc := s.pc + 1 } ∧
      t.acc.toInt = (v.toInt + delta.toInt).bmod (2 ^ 64) ∧ ProgBut s t (progAddr s off.toInt) t.acc

/-- Every program-relative access outside [0, N) raises AddressFault with the address, and nothing but the status and the
log changes (D13, D25). -/
def Obligations.ProgramAddressOutOfRangeIsFatal : Prop :=
  ∀ (s : State),
    (∀ x : BitVec 56, progAddr s x.toInt < 0 ∨ s.progLen ≤ progAddr s x.toInt →
      Raises (.loadR x) s (.addressFault (progAddr s x.toInt)) ∧ Raises (.addR x) s (.addressFault (progAddr s x.toInt)) ∧
      Raises (.subR x) s (.addressFault (progAddr s x.toInt)) ∧ Raises (.mulR x) s (.addressFault (progAddr s x.toInt)) ∧
      Raises (.divR x) s (.addressFault (progAddr s x.toInt)) ∧
      Raises (.storeR x) s (.addressFault (progAddr s x.toInt))) ∧
    (∀ (delta : BitVec 8) (off : BitVec 48), progAddr s off.toInt < 0 ∨ s.progLen ≤ progAddr s off.toInt →
      Raises (.incrR delta off) s (.addressFault (progAddr s off.toInt)))

/-- Self-modifying code: a StoreR that writes the next word's place is followed, in the very next step, by the
instruction it stored (R52, R53). -/
def Obligations.StoredWordRunsInTheNextStep : Prop :=
  ∀ (s : State) (i : Instr), s.status = .running → s.progWord? s.pc = some (encode (.storeR 1)) →
    s.pc + 1 < s.progLen → decode s.acc = .ok i →
    ∃ t, step s = .next t ∧ t.pc = s.pc + 1 ∧ t.progWord? t.pc = some s.acc ∧ step t = exec i t

/-! ## Call, return, push, pop (44_call_stack.md) -/

/-- Call, with room on the stack, pushes word(pc + 1) and jumps to pc + x, and every other cell and everything else is
unchanged; with a full stack it raises StackFault(overflow) (D11). The premise −1 ≤ sp is part of the invariant of
EveryStepKeepsTheInvariant. -/
def Obligations.CallPushesTheReturnIndex : Prop :=
  ∀ (x : BitVec 56) (s : State), -1 ≤ s.sp →
    (s.sp + 1 ≤ 255 →
      ∃ t, exec (.call x) s = .next t ∧ t = { s with stack := t.stack, sp := s.sp + 1, pc := s.pc + x.toInt } ∧
        StackBut s t (s.sp + 1) (word (s.pc + 1))) ∧
    (255 < s.sp + 1 → Raises (.call x) s (.stackFault .overflow (s.sp + 1)))

/-- Ret n drops n cells unread and jumps to the value of the cell under them, which leaves the stack too; Pop n takes the
accumulator from the top cell and drops n cells beneath it. No cell changes. -/
def Obligations.RetAndPopTakeCells : Prop :=
  ∀ (x : BitVec 56) (s : State) (v : Word), 0 ≤ x.toInt →
    (s.cell? (s.sp - x.toInt) = some v →
      exec (.ret x) s = .next { s with sp := s.sp - x.toInt - 1, pc := v.toInt }) ∧
    (x.toInt ≤ s.sp → s.cell? s.sp = some v →
      exec (.pop x) s = .next { s with acc := v, sp := s.sp - 1 - x.toInt, pc := s.pc + 1 })

/-- Push n, with room, writes n zero cells above sp and the accumulator above them, sp naming it; every other cell and
everything else but the pc is unchanged. -/
def Obligations.PushReservesZerosUnderTheAccumulator : Prop :=
  ∀ (x : BitVec 56) (s : State), -1 ≤ s.sp → 0 ≤ x.toInt → s.sp + x.toInt + 1 ≤ 255 →
    ∃ t, exec (.push x) s = .next t ∧ t = { s with stack := t.stack, sp := s.sp + x.toInt + 1, pc := s.pc + 1 } ∧
      (∀ j : Int, s.sp < j → j ≤ s.sp + x.toInt → t.cell? j = some 0) ∧ t.cell? (s.sp + x.toInt + 1) = some s.acc ∧
      (∀ j : Int, j ≤ s.sp ∨ s.sp + x.toInt + 1 < j → t.cell? j = s.cell? j)

/-- What Ret, Push and Pop raise, in the order of their rules, nothing written: a negative count (D12), then overflow or
underflow of the whole count (D11), then an unwritten cell (D8). -/
def Obligations.CountAndDepthFaults : Prop :=
  ∀ (x : BitVec 56) (s : State),
    (x.toInt < 0 → Raises (.ret x) s (.stackFault .negcount x.toInt) ∧ Raises (.push x) s (.stackFault .negcount x.toInt) ∧
      Raises (.pop x) s (.stackFault .negcount x.toInt)) ∧
    (0 ≤ x.toInt → 255 < s.sp + x.toInt + 1 → Raises (.push x) s (.stackFault .overflow (s.sp + x.toInt + 1))) ∧
    (0 ≤ x.toInt → s.sp - x.toInt < 0 → Raises (.ret x) s (.stackFault .underflow (s.sp - x.toInt)) ∧
      Raises (.pop x) s (.stackFault .underflow (s.sp - x.toInt))) ∧
    (0 ≤ x.toInt → 0 ≤ s.sp - x.toInt → s.cell? (s.sp - x.toInt) = none →
      Raises (.ret x) s (.stackFault .unwritten (s.sp - x.toInt))) ∧
    (0 ≤ x.toInt → 0 ≤ s.sp - x.toInt → s.cell? s.sp = none → Raises (.pop x) s (.stackFault .unwritten s.sp))

/-- R165: Push n and then Pop n, the Push not faulting, give back the accumulator and the stack pointer; the cells keep
the values the Push gave them. -/
def Obligations.PushThenPopRestores : Prop :=
  ∀ (x : BitVec 56) (s t : State), -1 ≤ s.sp → exec (.push x) s = .next t → t.status = s.status → s.status = .running →
    ∃ u, exec (.pop x) t = .next u ∧ u.acc = s.acc ∧ u.sp = s.sp ∧ u.pc = s.pc + 2 ∧ u.stack = t.stack ∧
      u.status = .running

/-- R164: Call k at p, and later Ret 0 with the stack pointer and the pushed cell as Call left them, resumes at p + 1 with the
stack pointer from before; p + 1 fits a 64-bit word. -/
def Obligations.CallThenRetReturns : Prop :=
  ∀ (x : BitVec 56) (s t u : State), -1 ≤ s.sp → -2 ^ 63 ≤ s.pc + 1 → s.pc + 1 < 2 ^ 63 → s.status = .running →
    exec (.call x) s = .next t → t.status = .running → u.sp = t.sp → u.cell? u.sp = t.cell? t.sp →
    ∃ v, exec (.ret 0) u = .next v ∧ v.pc = s.pc + 1 ∧ v.sp = s.sp ∧ v = { u with pc := v.pc, sp := v.sp }

/-! ## Stack-relative instructions (45_stack_relative.md) -/

/-- LoadS, AddS, SubS and MulS combine the accumulator with S[sp − x] (wrapping, D15), and change only the accumulator and
the pc. -/
def Obligations.StackRelativeLoadAndArithmetic : Prop :=
  ∀ (x : BitVec 56) (s : State) (v : Word), s.liveCell? (stackIndex s x.toInt) = some v →
    (∃ t, exec (.loadS x) s = .next t ∧ OnlyAcc s t ∧ t.acc = v) ∧
    (∃ t, exec (.addS x) s = .next t ∧ OnlyAcc s t ∧ t.acc.toInt = (s.acc.toInt + v.toInt).bmod (2 ^ 64)) ∧
    (∃ t, exec (.subS x) s = .next t ∧ OnlyAcc s t ∧ t.acc.toInt = (s.acc.toInt - v.toInt).bmod (2 ^ 64)) ∧
    (∃ t, exec (.mulS x) s = .next t ∧ OnlyAcc s t ∧ t.acc.toInt = (s.acc.toInt * v.toInt).bmod (2 ^ 64))

/-- StoreS sets a cell of the live window to the accumulator, whether it was written or not, and every other cell and
everything else but the pc is unchanged. -/
def Obligations.StoreSSetsOneCell : Prop :=
  ∀ (x : BitVec 56) (s : State), 0 ≤ stackIndex s x.toInt → stackIndex s x.toInt ≤ s.sp →
    ∃ t, exec (.storeS x) s = .next t ∧ t = { s with stack := t.stack, pc := s.pc + 1 } ∧
      StackBut s t (stackIndex s x.toInt) s.acc

/-- IncrS adds the signed delta to S[sp − off] in place (wrapping, D15); the accumulator is unchanged (D18, the default),
and so is every other cell. -/
def Obligations.IncrSAddsInPlace : Prop :=
  ∀ (delta : BitVec 8) (off : BitVec 48) (s : State) (v : Word), s.liveCell? (stackIndex s off.toInt) = some v →
    ∃ t w, exec (.incrS delta off) s = .next t ∧ t = { s with stack := t.stack, pc := s.pc + 1 } ∧
      w.toInt = (v.toInt + delta.toInt).bmod (2 ^ 64) ∧ StackBut s t (stackIndex s off.toInt) w

/-- IdivS divides the cell by the accumulator: the cell takes the quotient, the accumulator the remainder, and every other
cell is unchanged. The remainder's sign is general knowledge in the spec itself (93 G1) and PRESUMED in log entry 15. -/
def Obligations.IdivSDividesInPlace : Prop :=
  ∀ (x : BitVec 56) (s : State) (cur : Word), s.liveCell? (stackIndex s x.toInt) = some cur → s.acc.toInt ≠ 0 →
    ¬DivisionOverflows cur.toInt s.acc.toInt →
    ∃ t q, exec (.idivS x) s = .next t ∧ t = { s with acc := t.acc, stack := t.stack, pc := s.pc + 1 } ∧
      IsDivision cur.toInt s.acc.toInt q.toInt t.acc.toInt ∧ StackBut s t (stackIndex s x.toInt) q

/-- StoreSB replaces byte bo mod 8 of the cell sp − (base − bo div 8) by the accumulator's low byte and keeps the other
seven; every other cell is unchanged (the arithmetic is D4). A negative byte offset raises StackFault(negbyteoffset) (D23). -/
def Obligations.StoreSBReplacesOneByte : Prop :=
  ∀ (slot : BitVec 8) (base : BitVec 48) (s : State) (bo : Word), s.liveCell? (stackIndex s slot.toNat) = some bo →
    (bo.toInt < 0 → Raises (.storeSB slot base) s (.stackFault .negbyteoffset bo.toInt)) ∧
    (∀ old : Word, 0 ≤ bo.toInt → s.liveCell? (byteTarget s base bo.toInt) = some old →
      ∃ t new, exec (.storeSB slot base) s = .next t ∧ t = { s with stack := t.stack, pc := s.pc + 1 } ∧
        StackBut s t (byteTarget s base bo.toInt) new ∧
        ∀ m : Nat, m < 8 → byteOf new m = if m = bo.toNat % 8 then s.acc.setWidth 8 else byteOf old m)

/-- Every stack-relative access outside the live window raises StackFault(window) with the index, and nothing but the
status and the log changes (D9, D25): the nine instructions, both cells of StoreSB, and the first word of SysS Write. -/
def Obligations.AccessOutsideTheWindowIsFatal : Prop :=
  ∀ s : State,
    (∀ x : BitVec 56, stackIndex s x.toInt < 0 ∨ s.sp < stackIndex s x.toInt →
      ∀ i ∈ [Instr.loadS x, .storeS x, .addS x, .subS x, .mulS x, .divS x, .idivS x],
        Raises i s (.stackFault .window (stackIndex s x.toInt))) ∧
    (∀ (delta : BitVec 8) (off : BitVec 48), stackIndex s off.toInt < 0 ∨ s.sp < stackIndex s off.toInt →
      Raises (.incrS delta off) s (.stackFault .window (stackIndex s off.toInt))) ∧
    (∀ (slot : BitVec 8) (base : BitVec 48), stackIndex s slot.toNat < 0 ∨ s.sp < stackIndex s slot.toNat →
      Raises (.storeSB slot base) s (.stackFault .window (stackIndex s slot.toNat))) ∧
    (∀ (slot : BitVec 8) (base : BitVec 48) (bo : Word), s.liveCell? (stackIndex s slot.toNat) = some bo → 0 ≤ bo.toInt →
      byteTarget s base bo.toInt < 0 ∨ s.sp < byteTarget s base bo.toInt →
      Raises (.storeSB slot base) s (.stackFault .window (byteTarget s base bo.toInt))) ∧
    (∀ arg : BitVec 48, stackIndex s arg.toInt < 0 ∨ s.sp < stackIndex s arg.toInt →
      Raises (.sysSWrite arg) s (.stackFault .window (stackIndex s arg.toInt)))

/-- Reading a cell of the live window whose mark is false raises StackFault(unwritten) (D8); StoreS, which reads nothing,
does not. -/
def Obligations.UnwrittenCellReadIsFatal : Prop :=
  ∀ s : State,
    (∀ x : BitVec 56, 0 ≤ stackIndex s x.toInt → stackIndex s x.toInt ≤ s.sp → s.cell? (stackIndex s x.toInt) = none →
      ∀ i ∈ [Instr.loadS x, .addS x, .subS x, .mulS x, .divS x, .idivS x],
        Raises i s (.stackFault .unwritten (stackIndex s x.toInt))) ∧
    (∀ (delta : BitVec 8) (off : BitVec 48), 0 ≤ stackIndex s off.toInt → stackIndex s off.toInt ≤ s.sp →
      s.cell? (stackIndex s off.toInt) = none →
      Raises (.incrS delta off) s (.stackFault .unwritten (stackIndex s off.toInt))) ∧
    (∀ (slot : BitVec 8) (base : BitVec 48), 0 ≤ stackIndex s slot.toNat → stackIndex s slot.toNat ≤ s.sp →
      s.cell? (stackIndex s slot.toNat) = none →
      Raises (.storeSB slot base) s (.stackFault .unwritten (stackIndex s slot.toNat))) ∧
    (∀ (slot : BitVec 8) (base : BitVec 48) (bo : Word), s.liveCell? (stackIndex s slot.toNat) = some bo → 0 ≤ bo.toInt →
      0 ≤ byteTarget s base bo.toInt → byteTarget s base bo.toInt ≤ s.sp → s.cell? (byteTarget s base bo.toInt) = none →
      Raises (.storeSB slot base) s (.stackFault .unwritten (byteTarget s base bo.toInt))) ∧
    (∀ arg : BitVec 48, 0 ≤ stackIndex s arg.toInt → stackIndex s arg.toInt ≤ s.sp →
      s.cell? (stackIndex s arg.toInt) = none →
      Raises (.sysSWrite arg) s (.stackFault .unwritten (stackIndex s arg.toInt)))

/-! ## Syscalls (46_syscall.md) -/

/-- Exit, by Sys or SysS, sends one record with the accumulator and the argument and halts with the argument; everything
else, the pc too (D24), is unchanged. -/
def Obligations.ExitHaltsWithTheArgument : Prop :=
  ∀ (arg : BitVec 48) (s : State),
    ∀ i ∈ [Instr.sysExit arg, .sysSExit arg, .sys Config.syscallExit arg, .sysS Config.syscallExit arg],
      exec i s = .next
        { s with log := s.log ++ [.diag (.exit s.acc arg.toInt)], status := .halted arg.toInt }

/-- Sleep with an argument in [0, 1000], by Sys or SysS, records the sleep and advances; the accumulator is unchanged
(D19), and so is everything else. -/
def Obligations.SleepInRangeIsRecorded : Prop :=
  ∀ (arg : BitVec 48) (s : State), 0 ≤ arg.toInt → arg.toInt ≤ 1000 →
    ∀ i ∈ [Instr.sysSleep arg, .sysSSleep arg, .sys Config.syscallSleep arg, .sysS Config.syscallSleep arg],
      exec i s = .next { s with log := s.log ++ [.sleep arg.toNat], pc := s.pc + 1 }

/-- R234: a Sleep whose argument is below 0 or above 1000 raises SleepRange with the pc and the argument, and the process
exits with status 1; no sleep is requested. -/
def Obligations.SleepOutOfRangeIsFatal : Prop :=
  ∀ (arg : BitVec 48) (s : State), arg.toInt < 0 ∨ 1000 < arg.toInt →
    ∀ i ∈ [Instr.sysSleep arg, .sysSSleep arg, .sys Config.syscallSleep arg, .sysS Config.syscallSleep arg],
      Raises i s (.sleepRange arg.toInt) ∧
        (RunStatus.fatal (s.record (.sleepRange arg.toInt))).exitStatus = some 1

/-- R233: a Sys or SysS whose id is not 1, 2 or 3 raises UnknownSyscall with the id and the pc. -/
def Obligations.UnknownSyscallIsFatal : Prop :=
  ∀ (id : BitVec 8) (arg : BitVec 48) (s : State), id ≠ 1 → id ≠ 2 → id ≠ 3 →
    Raises (.sys id arg) s (.unknownSyscall id) ∧ Raises (.sysS id arg) s (.unknownSyscall id)

/-- Write of an empty string makes no host request, sets the accumulator to 0 and advances. -/
def Obligations.EmptyStringMakesNoRequest : Prop :=
  ∀ (arg : BitVec 48) (s : State) (v : Word), v.toNat % 2 ^ 8 = 0 →
    (s.progWord? (progAddr s arg.toInt) = some v →
      ∀ i ∈ [Instr.sysWrite arg, .sys Config.syscallWrite arg], exec i s = .next { s with acc := 0, pc := s.pc + 1 }) ∧
    (s.liveCell? (stackIndex s arg.toInt) = some v →
      ∀ i ∈ [Instr.sysSWrite arg, .sysS Config.syscallWrite arg], exec i s = .next { s with acc := 0, pc := s.pc + 1 })

/-- Write of a string in P: the L bytes after the length prefix, in increasing address order, are handed over in one
request (the string starts at byte 0 of word pc + arg, D20), and the Write ends as the host's count says. -/
def Obligations.WriteHandsOverProgramBytes : Prop :=
  ∀ (arg : BitVec 48) (s : State) (v : Word), s.progWord? (progAddr s arg.toInt) = some v → v.toNat % 2 ^ 8 ≠ 0 →
    progAddr s arg.toInt + (v.toNat % 2 ^ 8 : Nat) / 8 < s.progLen →
    ∀ i ∈ [Instr.sysWrite arg, .sys Config.syscallWrite arg],
      ∃ t bytes, exec i s = .next t ∧ bytes.length = v.toNat % 2 ^ 8 ∧
        (∀ k : Nat, k < bytes.length → bytes[k]? = some (s.prog.readByte (8 * progAddr s arg.toInt + 1 + k).toNat)) ∧
        WriteOutcome s t bytes

/-- Write of a string in S, whose words are all in the live window and written: the same, with the string's word at
sp − arg. -/
def Obligations.WriteHandsOverStackBytes : Prop :=
  ∀ (arg : BitVec 48) (s : State) (v : Word), s.liveCell? (stackIndex s arg.toInt) = some v → v.toNat % 2 ^ 8 ≠ 0 →
    (∀ k : Nat, k ≤ (v.toNat % 2 ^ 8) / 8 → (s.liveCell? (stackIndex s arg.toInt + k)).isSome) →
    ∀ i ∈ [Instr.sysSWrite arg, .sysS Config.syscallWrite arg],
      ∃ t bytes, exec i s = .next t ∧ bytes.length = v.toNat % 2 ^ 8 ∧
        (∀ k : Nat, k < bytes.length → bytes[k]? = (s.cell? ((8 * stackIndex s arg.toInt + 1 + k) / 8)).map
          fun cell => byteOf cell ((8 * stackIndex s arg.toInt + 1 + k) % 8).toNat) ∧
        WriteOutcome s t bytes

/-- A Write whose string leaves the addressable words faults before any byte is handed over, and names the first word that
fails (D21): the first of the string, or the first past the end of P or above sp, or an unwritten cell. -/
def Obligations.WriteOutOfBoundsIsFatal : Prop :=
  ∀ (arg : BitVec 48) (s : State),
    (progAddr s arg.toInt < 0 ∨ s.progLen ≤ progAddr s arg.toInt →
      Raises (.sysWrite arg) s (.addressFault (progAddr s arg.toInt))) ∧
    (∀ v, s.progWord? (progAddr s arg.toInt) = some v →
      s.progLen ≤ progAddr s arg.toInt + (v.toNat % 2 ^ 8 : Nat) / 8 →
      Raises (.sysWrite arg) s (.addressFault s.progLen)) ∧
    (∀ (v : Word) (n : Nat), s.liveCell? (stackIndex s arg.toInt) = some v → 1 ≤ n → n ≤ (v.toNat % 2 ^ 8) / 8 →
      (∀ k < n, (s.liveCell? (stackIndex s arg.toInt + k)).isSome) →
      (s.sp < stackIndex s arg.toInt + n →
        Raises (.sysSWrite arg) s (.stackFault .window (stackIndex s arg.toInt + n))) ∧
      (stackIndex s arg.toInt + n ≤ s.sp → s.cell? (stackIndex s arg.toInt + n) = none →
        Raises (.sysSWrite arg) s (.stackFault .unwritten (stackIndex s arg.toInt + n))))

/-! ## The whole machine -/

/-- Reset meets the three invariants. -/
def Obligations.ResetMeetsTheInvariants : Prop :=
  State.reset.Inv ∧ State.reset.recordsAgree ∧ State.reset.pcFits

/-- Every step keeps the invariant of the stores: P canonical and inside its N words, S canonical and inside its 256
cells, sp in [−1, 255], every cell of the live window written. -/
def Obligations.EveryStepKeepsTheInvariant : Prop :=
  ∀ s t : State, s.Inv → step s = .next t → t.Inv

/-- R252: no diagnostic record is in the log while the run goes on, and when it has ended exactly one is, the last event:
FallThrough or Exit for a halt, Fatal for a fault. Every step keeps this. -/
def Obligations.OneDiagnosticRecordAtTheEnd : Prop :=
  ∀ s t : State, s.recordsAgree → step s = .next t → t.recordsAgree

/-- The pc stays inside its 64-bit register for every program of at most 2^62 words, though targets are computed exactly
(D31; the pc is held as an integer, log entry 2). -/
def Obligations.PcStaysInSixtyFourBits : Prop :=
  ∀ s t : State, s.progLen ≤ 2 ^ 62 → s.pcFits → step s = .next t → t.pcFits

/-- No step changes the length of the program store, and the log only grows at its end (R34, R30). -/
def Obligations.ProgramLengthFixedAndLogOnlyGrows : Prop :=
  ∀ s t : State, step s = .next t → t.progLen = s.progLen ∧ ∃ events, t.log = s.log ++ events

/-- From a state that meets the invariant no step raises StackFault(unwritten): every cell an instruction may read has
been written. The fault of D8 needs a state no run reaches. -/
def Obligations.NoUnwrittenReadFromTheInvariant : Prop :=
  ∀ s t : State, s.Inv → step s = .next t → ∀ (i pc : Int), t.status ≠ .fatal ⟨.stackFault .unwritten i, pc⟩

/-- Faults are precise (D25): a step that ends Fatal records the pc it started at, and leaves everything but the status and
the log as it was; a failed output alone also sets the accumulator to −1 and has handed its bytes over. -/
def Obligations.FaultsArePrecise : Prop :=
  ∀ (s t : State) (r : FaultRecord), step s = .next t → t.status = .fatal r →
    r.pc = s.pc ∧
    (t = { s with log := s.log ++ [.diag (.fatal r)], status := .fatal r } ∨
     ∃ bytes accepted, accepted < bytes.length ∧ r.cause = .writeIO bytes.length accepted ∧
       t = { s with
             acc := word (-1), hostTurn := t.hostTurn
             log := s.log ++ [.write bytes accepted, .diag (.fatal r)], status := .fatal r })

/-- The left fold of R110: from a running state whose pc starts a row of LoadI, AddI, SubI, MulI, DivI, ModI and AndI words that ends with
P, the run falls off the end with the left fold of their operations over the accumulator, and nothing else changes; where
an operation of the fold is a faulting division, the run ends Fatal. Wrapping is D15; that the overflowing pair faults is
D16, the default (log entry 10); the remainder's sign is general knowledge (93 G1), PRESUMED in log entry 15. -/
def Obligations.ArithmeticProgramIsALeftFold : Prop :=
  ∀ (ops : List (FoldOp × BitVec 56)) (s : State), s.status = .running → 0 ≤ s.pc → s.pc + ops.length = s.progLen →
    (∀ k : Nat, k < ops.length → s.progWord? (s.pc + k) = ops[k]?.map fun o => encode (o.1.instr o.2)) →
    (∀ v, foldAcc s.acc ops = some v →
      steps (ops.length + 1) s = .next
        { s with acc := v, pc := s.progLen, log := s.log ++ [.diag (.fallThrough v)], status := .halted 0 }) ∧
    (foldAcc s.acc ops = none → ∃ k t r, k ≤ ops.length ∧ steps k s = .next t ∧ t.status = .fatal r)

/-- What the other instructions leave alone: only those of the table of R22 change the accumulator; only Call, Ret, Push
and Pop the stack pointer; only StoreR and IncrR a byte of P; only Call, Push, StoreS, IncrS, IdivS and StoreSB a cell of S
or its mark; and no instruction makes a written cell unwritten. -/
def Obligations.OnlyListedInstructionsWrite : Prop :=
  ∀ (i : Instr) (s t : State), exec i s = .next t →
    (writesAcc i = false → t.acc = s.acc) ∧ (writesSp i = false → t.sp = s.sp) ∧
    (writesProg i = false → ∀ b, t.prog.readByte b = s.prog.readByte b) ∧
    (writesStack i = false → ∀ j, t.cell? j = s.cell? j) ∧
    (∀ j, (s.cell? j).isSome → (t.cell? j).isSome)

/-! ## The load phase -/

/-- An image that cannot be opened is a load error with status 1 and one diagnostic record (R281; that it has a kind of its
own is log entry 13); one that can be is loaded. A good image that is delivered short inside its header is ShortRead: the
model's choice, log entry 13. -/
def Obligations.BootRefusesUnopenedAndCutImages : Prop :=
  boot none = .loadError .openFailure ∧ (boot none).exitStatus = some 1 ∧ (boot none).diagnostics = [.openFailure] ∧
  (∀ src : ImageSource, boot (some src) = load src) ∧
  (∀ (words : List Word) (n : Nat), n < 8 →
    boot (some ⟨8 + 8 * words.length, (magic ++ words.flatMap leBytes).take n, true⟩) = .loadError .shortRead)
end

