-- ==== Sys2Proof/Laws/Bytes.lean ====
section
/-! SUPPORT. Words and their bytes: taking a word apart and putting it together again, and replacing one byte. -/

namespace Sys2Proof.Machine

theorem byteOf_getLsbD (v : Word) (m k : Nat) (hk : k < 8) : (byteOf v m).getLsbD k = v.getLsbD (8 * m + k) := by
  simp [byteOf, hk]

/-- A word is made of its own bytes. -/
theorem wordOfBytes_byteOf (v : Word) :
    wordOfBytes (byteOf v 0) (byteOf v 1) (byteOf v 2) (byteOf v 3) (byteOf v 4) (byteOf v 5) (byteOf v 6) (byteOf v 7)
      = v := by
  apply BitVec.eq_of_getLsbD_eq
  intro k hk
  simp only [wordOfBytes, BitVec.getLsbD_append]
  split_ifs <;> (rw [byteOf_getLsbD _ _ _ (by omega)]; congr 1; omega)

/-- The bytes of a word made of bytes are those bytes. -/
theorem byteOf_wordOfBytes (b : Nat → Byte) (m : Nat) (hm : m < 8) :
    byteOf (wordOfBytes (b 0) (b 1) (b 2) (b 3) (b 4) (b 5) (b 6) (b 7)) m = b m := by
  apply BitVec.eq_of_getLsbD_eq
  intro k hk
  rw [byteOf_getLsbD _ _ _ hk]
  simp only [wordOfBytes, BitVec.getLsbD_append]
  interval_cases m <;> (
    repeat first | rw [if_pos (by omega)] | rw [if_neg (by omega)]
    congr 1
    omega)

/-- Replacing byte `m` of a word changes that byte and no other. -/
theorem byteOf_setByte (v : Word) (m : Nat) (b : Byte) (k : Nat) (hm : m < 8) (hk : k < 8) :
    byteOf (setByte v m b) k = if k = m then b else byteOf v k := by
  apply BitVec.eq_of_getLsbD_eq
  intro j hj
  have h255 : ∀ n, (0xFF#64).getLsbD n = decide (n < 8) := by
    intro n
    rw [show (0xFF#64) = (BitVec.allOnes 8).setWidth 64 by decide, BitVec.getLsbD_setWidth, BitVec.getLsbD_allOnes]
    by_cases h : n < 8 <;> simp [h]; omega
  rw [byteOf_getLsbD _ _ _ hj]
  simp only [setByte, BitVec.getLsbD_or, BitVec.getLsbD_and, BitVec.getLsbD_not, BitVec.getLsbD_shiftLeft, h255,
    BitVec.getLsbD_setWidth, show 8 * k + j < 64 by omega, decide_true, Bool.true_and]
  rcases Nat.lt_trichotomy k m with h | h | h
  · rw [if_neg (by omega), byteOf_getLsbD _ _ _ hj]
    simp [show 8 * k + j < 8 * m by omega]
  · subst h
    simp [show j < 64 by omega, hj]
  · rw [if_neg (by omega), byteOf_getLsbD _ _ _ hj, BitVec.getLsbD_of_ge b _ (by omega)]
    simp [show ¬8 * k + j < 8 * m by omega, show ¬8 * k + j - 8 * m < 8 by omega]

end Sys2Proof.Machine
end

