-- ==== Sys2Proof/Laws/Cells.lean ====
section
/-! SUPPORT. Keyed lists: what a lookup finds after an update, and that every update keeps the canonical form. -/

namespace Sys2Proof.Machine

variable {α : Type}

/-! ## Lookup after an update -/

@[simp] theorem Cells.find?_put_same (l : List (Nat × α)) (a : Nat) (v : α) :
    Cells.find? (Cells.put l a v) a = some v := by
  induction l with
  | nil => simp [Cells.put, Cells.find?]
  | cons c rest ih =>
    simp only [Cells.put]
    split_ifs with h₁ h₂
    · simp [Cells.find?]
    · simp [Cells.find?]
    · simp [Cells.find?, h₂, ih]

@[simp] theorem Cells.find?_put_other (l : List (Nat × α)) {a b : Nat} (v : α) (h : b ≠ a) :
    Cells.find? (Cells.put l a v) b = Cells.find? l b := by
  induction l with
  | nil => simp [Cells.put, Cells.find?, h]
  | cons c rest ih =>
    simp only [Cells.put]
    split_ifs with h₁ h₂
    · simp [Cells.find?, h]
    · subst h₂
      simp [Cells.find?, h]
    · simp only [Cells.find?, ih]

@[simp] theorem Cells.find?_drop_same (l : List (Nat × α)) (a : Nat) : Cells.find? (Cells.drop l a) a = none := by
  induction l with
  | nil => rfl
  | cons c rest ih =>
    simp only [Cells.drop]
    split_ifs with h
    · exact ih
    · simp [Cells.find?, h, ih]

@[simp] theorem Cells.find?_drop_other (l : List (Nat × α)) {a b : Nat} (h : b ≠ a) :
    Cells.find? (Cells.drop l a) b = Cells.find? l b := by
  induction l with
  | nil => rfl
  | cons c rest ih =>
    simp only [Cells.drop]
    split_ifs with h₁
    · subst h₁
      simp [Cells.find?, h, ih]
    · simp only [Cells.find?, ih]

/-! ## Lookup and membership -/

theorem Cells.find?_eq_none {l : List (Nat × α)} {a : Nat} (h : ∀ c ∈ l, a ≠ c.1) : Cells.find? l a = none := by
  induction l with
  | nil => rfl
  | cons c rest ih =>
    rw [Cells.find?, if_neg (h c List.mem_cons_self)]
    exact ih fun d hd => h d (List.mem_cons_of_mem _ hd)

theorem Cells.mem_of_find? {l : List (Nat × α)} {a : Nat} {v : α} (h : Cells.find? l a = some v) : (a, v) ∈ l := by
  induction l with
  | nil => simp [Cells.find?] at h
  | cons c rest ih =>
    rw [Cells.find?] at h
    split_ifs at h with h₁
    · subst h₁
      cases h
      exact List.mem_cons_self
    · exact List.mem_cons_of_mem _ (ih h)

/-- Canonical lists in which every lookup agrees are the same list. -/
theorem Cells.ext {l₁ l₂ : List (Nat × α)} (h₁ : Cells.rising l₁) (h₂ : Cells.rising l₂)
    (h : ∀ a, Cells.find? l₁ a = Cells.find? l₂ a) : l₁ = l₂ := by
  induction l₁ generalizing l₂ with
  | nil =>
    cases l₂ with
    | nil => rfl
    | cons d r₂ => simpa [Cells.find?] using h d.1
  | cons c r₁ ih =>
    cases l₂ with
    | nil => simpa [Cells.find?] using h c.1
    | cons d r₂ =>
      obtain ⟨k, v⟩ := c
      obtain ⟨k', v'⟩ := d
      obtain ⟨hc, hr₁⟩ := List.pairwise_cons.1 h₁
      obtain ⟨hd, hr₂⟩ := List.pairwise_cons.1 h₂
      have hk : k = k' := by
        have hk₁ := h k
        have hk₂ := h k'
        simp only [Cells.find?, if_true] at hk₁ hk₂
        by_contra hne
        rw [if_neg hne] at hk₁
        rw [if_neg (Ne.symm hne)] at hk₂
        have := hd _ (Cells.mem_of_find? hk₁.symm)
        have := hc _ (Cells.mem_of_find? hk₂)
        simp only at *
        omega
      subst hk
      have hv : v = v' := by simpa [Cells.find?] using h k
      subst hv
      congr 1
      refine ih hr₁ hr₂ fun a => ?_
      by_cases ha : a = k
      · subst ha
        rw [Cells.find?_eq_none fun c hm => Nat.ne_of_lt (hc c hm), Cells.find?_eq_none fun c hm => Nat.ne_of_lt (hd c hm)]
      · simpa [Cells.find?, ha] using h a

/-! ## What an update holds -/

theorem Cells.mem_put {l : List (Nat × α)} {a : Nat} {v : α} {c : Nat × α} (h : c ∈ Cells.put l a v) :
    c = (a, v) ∨ c ∈ l := by
  induction l with
  | nil => simpa [Cells.put] using h
  | cons d rest ih =>
    simp only [Cells.put] at h
    split_ifs at h with h₁ h₂
    · simpa using h
    · rcases List.mem_cons.1 h with h | h
      · exact .inl h
      · exact .inr (List.mem_cons_of_mem _ h)
    · rcases List.mem_cons.1 h with h | h
      · exact .inr (h ▸ List.mem_cons_self)
      · exact (ih h).imp id (List.mem_cons_of_mem _)

theorem Cells.mem_drop {l : List (Nat × α)} {a : Nat} {c : Nat × α} (h : c ∈ Cells.drop l a) : c ∈ l := by
  induction l with
  | nil => simp [Cells.drop] at h
  | cons d rest ih =>
    simp only [Cells.drop] at h
    split_ifs at h with h₁
    · exact List.mem_cons_of_mem _ (ih h)
    · rcases List.mem_cons.1 h with h | h
      · exact h ▸ List.mem_cons_self
      · exact List.mem_cons_of_mem _ (ih h)

theorem Cells.rising_put {l : List (Nat × α)} (a : Nat) (v : α) (h : Cells.rising l) : Cells.rising (Cells.put l a v) := by
  induction l with
  | nil => simp [Cells.put]
  | cons d rest ih =>
    obtain ⟨hd, hrest⟩ := List.pairwise_cons.1 h
    simp only [Cells.put]
    split_ifs with h₁ h₂
    · refine List.pairwise_cons.2 ⟨fun c hc => ?_, h⟩
      rcases List.mem_cons.1 hc with rfl | hc
      · exact h₁
      · exact Nat.lt_trans h₁ (hd c hc)
    · subst h₂
      exact List.pairwise_cons.2 ⟨hd, hrest⟩
    · refine List.pairwise_cons.2 ⟨fun c hc => ?_, ih hrest⟩
      rcases Cells.mem_put hc with rfl | hc
      · show d.1 < a
        omega
      · exact hd c hc

theorem Cells.rising_drop {l : List (Nat × α)} (a : Nat) (h : Cells.rising l) : Cells.rising (Cells.drop l a) := by
  induction l with
  | nil => simp [Cells.drop]
  | cons d rest ih =>
    obtain ⟨hd, hrest⟩ := List.pairwise_cons.1 h
    simp only [Cells.drop]
    split_ifs with h₁
    · exact ih hrest
    · exact List.pairwise_cons.2 ⟨fun c hc => hd c (Cells.mem_drop hc), ih hrest⟩

end Sys2Proof.Machine
end

