-- ==== Sys2Proof/Laws/Memory.lean ====
section
/-! SUPPORT. The program store: reads after writes, by byte and by word, and that every operation keeps its canonical
form. -/

namespace Sys2Proof.Machine

/-! ## Reads after writes -/

@[simp] theorem Memory.readByte_writeByte_same (m : Memory) (a : Nat) (b : Byte) :
    (m.writeByte a b).readByte a = b := by
  unfold Memory.writeByte Memory.readByte
  split_ifs with h
  · simp [h]
  · simp

@[simp] theorem Memory.readByte_writeByte_other (m : Memory) {a c : Nat} (b : Byte) (h : c ≠ a) :
    (m.writeByte a b).readByte c = m.readByte c := by
  unfold Memory.writeByte Memory.readByte
  split_ifs <;> simp [h]

/-- A read outside the written bytes is what it was. -/
theorem Memory.readByte_writeBytes_outside (m : Memory) (a c : Nat) (bytes : List Byte)
    (h : c < a ∨ a + bytes.length ≤ c) : (m.writeBytes a bytes).readByte c = m.readByte c := by
  induction bytes generalizing m a with
  | nil => rfl
  | cons b rest ih =>
    simp only [List.length_cons] at h
    rw [Memory.writeBytes, ih _ _ (by omega), Memory.readByte_writeByte_other _ _ (by omega)]

/-- A read inside the written bytes is the byte written there. -/
theorem Memory.readByte_writeBytes_inside (m : Memory) (a k : Nat) (bytes : List Byte) (h : k < bytes.length) :
    (m.writeBytes a bytes).readByte (a + k) = bytes[k] := by
  induction bytes generalizing m a k with
  | nil => simp at h
  | cons b rest ih =>
    rw [Memory.writeBytes]
    cases k with
    | zero => rw [Nat.add_zero, Memory.readByte_writeBytes_outside _ _ _ _ (by omega)]; simp
    | succ k =>
      rw [show a + (k + 1) = a + 1 + k by omega, ih _ _ _ (by simpa using h)]
      rfl

theorem Memory.readByte_writeWord_outside (m : Memory) (a c : Nat) (v : Word) (h : c / 8 ≠ a) :
    (m.writeWord a v).readByte c = m.readByte c :=
  Memory.readByte_writeBytes_outside _ _ _ _ (by simp only [leBytes, List.length_cons, List.length_nil]; omega)

theorem Memory.readByte_writeWord_inside (m : Memory) (a k : Nat) (v : Word) (h : k < 8) :
    (m.writeWord a v).readByte (8 * a + k) = byteOf v k := by
  rw [Memory.writeWord, Memory.readByte_writeBytes_inside _ _ _ _ (by simpa [leBytes] using h)]
  interval_cases k <;> rfl

/-- A word reads as the word written there. -/
@[simp] theorem Memory.readWord_writeWord_same (m : Memory) (a : Nat) (v : Word) :
    (m.writeWord a v).readWord a = v := by
  have h := fun k hk => Memory.readByte_writeWord_inside m a k v hk
  rw [Memory.readWord, ← Nat.add_zero (8 * a)]
  simp only [Nat.add_zero, h 1 (by omega), h 2 (by omega), h 3 (by omega), h 4 (by omega), h 5 (by omega), h 6 (by omega),
    h 7 (by omega)]
  rw [show (m.writeWord a v).readByte (8 * a) = byteOf v 0 from h 0 (by omega)]
  exact wordOfBytes_byteOf v

/-- Another word reads as before. -/
@[simp] theorem Memory.readWord_writeWord_other (m : Memory) {a c : Nat} (v : Word) (h : c ≠ a) :
    (m.writeWord a v).readWord c = m.readWord c := by
  have h' := fun k (hk : k < 8) => Memory.readByte_writeWord_outside m a (8 * c + k) v (by omega)
  simp only [Memory.readWord, h' 1 (by omega), h' 2 (by omega), h' 3 (by omega), h' 4 (by omega), h' 5 (by omega),
    h' 6 (by omega), h' 7 (by omega)]
  rw [show (m.writeWord a v).readByte (8 * c) = m.readByte (8 * c) from h' 0 (by omega)]

/-- A byte of a word read is the byte at its place in the byte view (R43). -/
theorem Memory.byteOf_readWord (m : Memory) (a k : Nat) (h : k < 8) :
    byteOf (m.readWord a) k = m.readByte (8 * a + k) :=
  byteOf_wordOfBytes (fun k => m.readByte (8 * a + k)) k h

/-! ## The canonical form -/

theorem Memory.wf_writeByte {m : Memory} (a : Nat) (b : Byte) (h : m.wf) : (m.writeByte a b).wf := by
  unfold Memory.writeByte
  split_ifs with hb
  · exact ⟨Cells.rising_drop a h.1, fun c hc => h.2 c (Cells.mem_drop hc)⟩
  · refine ⟨Cells.rising_put a b h.1, fun c hc => ?_⟩
    rcases Cells.mem_put hc with rfl | hc
    · exact hb
    · exact h.2 c hc

theorem Memory.mem_writeByte {m : Memory} {a : Nat} {b : Byte} {c : Host.Cell} (h : c ∈ m.writeByte a b) :
    c.1 = a ∨ c ∈ m := by
  unfold Memory.writeByte at h
  split_ifs at h
  · exact .inr (Cells.mem_drop h)
  · exact (Cells.mem_put h).imp (fun h => by rw [h]) id

theorem Memory.wf_writeBytes {m : Memory} (a : Nat) (bytes : List Byte) (h : m.wf) : (m.writeBytes a bytes).wf := by
  induction bytes generalizing m a with
  | nil => exact h
  | cons b rest ih => exact ih _ (Memory.wf_writeByte a b h)

theorem Memory.mem_writeBytes {m : Memory} {a : Nat} {bytes : List Byte} {c : Host.Cell}
    (h : c ∈ m.writeBytes a bytes) : (a ≤ c.1 ∧ c.1 < a + bytes.length) ∨ c ∈ m := by
  induction bytes generalizing m a with
  | nil => exact .inr h
  | cons b rest ih =>
    rw [List.length_cons]
    rcases ih h with h | h
    · exact .inl ⟨by omega, by omega⟩
    · exact (Memory.mem_writeByte h).imp (fun h => ⟨by omega, by omega⟩) id

theorem Memory.wf_writeWord {m : Memory} (a : Nat) (v : Word) (h : m.wf) : (m.writeWord a v).wf :=
  Memory.wf_writeBytes _ _ h

theorem Memory.mem_writeWord {m : Memory} {a : Nat} {v : Word} {c : Host.Cell} (h : c ∈ m.writeWord a v) :
    c.1 < 8 * (a + 1) ∨ c ∈ m := by
  refine (Memory.mem_writeBytes h).imp (fun h => ?_) id
  simp only [leBytes, List.length_cons, List.length_nil] at h
  omega

/-- Equal reads, equal data: two canonical stores that read alike at every byte are the same list. -/
theorem Memory.ext {m n : Memory} (hm : m.wf) (hn : n.wf) (h : ∀ a, m.readByte a = n.readByte a) : m = n := by
  have find? : ∀ {m : Memory}, m.wf → ∀ a, Cells.find? m a = if m.readByte a = unlistedByte then none else some (m.readByte a) := by
    intro m hm a
    unfold Memory.readByte
    cases hf : Cells.find? m a with
    | none => simp
    | some b => simp [hm.2 _ (Cells.mem_of_find? hf)]
  exact Cells.ext hm.1 hn.1 fun a => by rw [find? hm, find? hn, h]

/-! ## A store filled from bytes -/

theorem Memory.ofBytes_wf (a : Nat) (bytes : List Byte) :
    (Memory.ofBytes a bytes).wf ∧ ∀ c ∈ Memory.ofBytes a bytes, a ≤ c.1 ∧ c.1 < a + bytes.length := by
  induction bytes generalizing a with
  | nil => exact ⟨⟨List.Pairwise.nil, by simp [Memory.ofBytes]⟩, by simp [Memory.ofBytes]⟩
  | cons b rest ih =>
    obtain ⟨hwf, hmem⟩ := ih (a + 1)
    simp only [Memory.ofBytes, List.length_cons]
    split_ifs with hb
    · exact ⟨hwf, fun c hc => by have := hmem c hc; omega⟩
    · refine ⟨⟨List.pairwise_cons.2 ⟨fun c hc => ?_, hwf.1⟩, ?_⟩, ?_⟩
      · have := hmem c hc
        show a < c.1
        omega
      · intro c hc
        rcases List.mem_cons.1 hc with rfl | hc
        · exact hb
        · exact hwf.2 c hc
      · intro c hc
        rcases List.mem_cons.1 hc with rfl | hc
        · show a ≤ a ∧ a < _
          omega
        · have := hmem c hc
          omega

/-- A store filled from `a` reads, at `a + k`, the k-th byte (R278, R279). -/
theorem Memory.readByte_ofBytes (a k : Nat) (bytes : List Byte) (h : k < bytes.length) :
    (Memory.ofBytes a bytes).readByte (a + k) = bytes[k] := by
  induction bytes generalizing a k with
  | nil => simp at h
  | cons b rest ih =>
    have none_below : Cells.find? (Memory.ofBytes (a + 1) rest) a = none :=
      Cells.find?_eq_none fun c hc => by have := (Memory.ofBytes_wf (a + 1) rest).2 c hc; omega
    have ih' := fun k hk => ih (a + 1) k hk
    simp only [Memory.ofBytes, Memory.readByte] at ih' ⊢
    cases k with
    | zero =>
      split_ifs with hb
      · show (Cells.find? _ a).getD unlistedByte = b
        rw [none_below]
        exact hb.symm
      · simp [Cells.find?]
    | succ k =>
      rw [show a + (k + 1) = a + 1 + k by omega]
      split_ifs with hb
      · rw [ih' k (by simpa using h)]; rfl
      · rw [Cells.find?, if_neg (by omega), ih' k (by simpa using h)]; rfl

end Sys2Proof.Machine
end

