-- ==== Sys2Proof/Laws/State.lean ====
section
/-! SUPPORT. One lemma for each field and each update of the state, so that no later proof unfolds a record update. -/

namespace Sys2Proof.Machine

variable (s : State)

@[simp] theorem State.setAcc_acc (v : Word) : (s.setAcc v).acc = v := rfl
@[simp] theorem State.setAcc_pc (v : Word) : (s.setAcc v).pc = s.pc := rfl
@[simp] theorem State.setAcc_sp (v : Word) : (s.setAcc v).sp = s.sp := rfl
@[simp] theorem State.setAcc_progLen (v : Word) : (s.setAcc v).progLen = s.progLen := rfl
@[simp] theorem State.setAcc_prog (v : Word) : (s.setAcc v).prog = s.prog := rfl
@[simp] theorem State.setAcc_stack (v : Word) : (s.setAcc v).stack = s.stack := rfl
@[simp] theorem State.setAcc_status (v : Word) : (s.setAcc v).status = s.status := rfl
@[simp] theorem State.setAcc_log (v : Word) : (s.setAcc v).log = s.log := rfl
@[simp] theorem State.setAcc_hostTurn (v : Word) : (s.setAcc v).hostTurn = s.hostTurn := rfl

@[simp] theorem State.setSp_acc (i : Int) : (s.setSp i).acc = s.acc := rfl
@[simp] theorem State.setSp_pc (i : Int) : (s.setSp i).pc = s.pc := rfl
@[simp] theorem State.setSp_sp (i : Int) : (s.setSp i).sp = i := rfl
@[simp] theorem State.setSp_progLen (i : Int) : (s.setSp i).progLen = s.progLen := rfl
@[simp] theorem State.setSp_prog (i : Int) : (s.setSp i).prog = s.prog := rfl
@[simp] theorem State.setSp_stack (i : Int) : (s.setSp i).stack = s.stack := rfl
@[simp] theorem State.setSp_status (i : Int) : (s.setSp i).status = s.status := rfl
@[simp] theorem State.setSp_log (i : Int) : (s.setSp i).log = s.log := rfl
@[simp] theorem State.setSp_hostTurn (i : Int) : (s.setSp i).hostTurn = s.hostTurn := rfl

@[simp] theorem State.emit_acc (e : HostEvent) : (s.emit e).acc = s.acc := rfl
@[simp] theorem State.emit_pc (e : HostEvent) : (s.emit e).pc = s.pc := rfl
@[simp] theorem State.emit_sp (e : HostEvent) : (s.emit e).sp = s.sp := rfl
@[simp] theorem State.emit_progLen (e : HostEvent) : (s.emit e).progLen = s.progLen := rfl
@[simp] theorem State.emit_prog (e : HostEvent) : (s.emit e).prog = s.prog := rfl
@[simp] theorem State.emit_stack (e : HostEvent) : (s.emit e).stack = s.stack := rfl
@[simp] theorem State.emit_status (e : HostEvent) : (s.emit e).status = s.status := rfl
@[simp] theorem State.emit_log (e : HostEvent) : (s.emit e).log = s.log ++ [e] := rfl
@[simp] theorem State.emit_hostTurn (e : HostEvent) : (s.emit e).hostTurn = s.hostTurn := rfl

@[simp] theorem State.faulted_acc (cause : FaultCause) : (s.faulted cause).acc = s.acc := rfl
@[simp] theorem State.faulted_pc (cause : FaultCause) : (s.faulted cause).pc = s.pc := rfl
@[simp] theorem State.faulted_sp (cause : FaultCause) : (s.faulted cause).sp = s.sp := rfl
@[simp] theorem State.faulted_progLen (cause : FaultCause) : (s.faulted cause).progLen = s.progLen := rfl
@[simp] theorem State.faulted_prog (cause : FaultCause) : (s.faulted cause).prog = s.prog := rfl
@[simp] theorem State.faulted_stack (cause : FaultCause) : (s.faulted cause).stack = s.stack := rfl
@[simp] theorem State.faulted_status (cause : FaultCause) : (s.faulted cause).status = .fatal ⟨cause, s.pc⟩ := rfl
@[simp] theorem State.faulted_log (cause : FaultCause) : (s.faulted cause).log = s.log ++ [.diag (.fatal ⟨cause, s.pc⟩)] := rfl
@[simp] theorem State.faulted_hostTurn (cause : FaultCause) : (s.faulted cause).hostTurn = s.hostTurn := rfl

@[simp] theorem State.putCell_acc (i : Int) (v : Word) : (s.putCell i v).acc = s.acc := rfl
@[simp] theorem State.putCell_pc (i : Int) (v : Word) : (s.putCell i v).pc = s.pc := rfl
@[simp] theorem State.putCell_sp (i : Int) (v : Word) : (s.putCell i v).sp = s.sp := rfl
@[simp] theorem State.putCell_progLen (i : Int) (v : Word) : (s.putCell i v).progLen = s.progLen := rfl
@[simp] theorem State.putCell_prog (i : Int) (v : Word) : (s.putCell i v).prog = s.prog := rfl
@[simp] theorem State.putCell_stack (i : Int) (v : Word) : (s.putCell i v).stack = Cells.put s.stack i.toNat v := rfl
@[simp] theorem State.putCell_status (i : Int) (v : Word) : (s.putCell i v).status = s.status := rfl
@[simp] theorem State.putCell_log (i : Int) (v : Word) : (s.putCell i v).log = s.log := rfl
@[simp] theorem State.putCell_hostTurn (i : Int) (v : Word) : (s.putCell i v).hostTurn = s.hostTurn := rfl

@[simp] theorem State.hostWrote_acc (bytes : List Byte) (n : Nat) : (s.hostWrote bytes n).acc = s.acc := rfl
@[simp] theorem State.hostWrote_pc (bytes : List Byte) (n : Nat) : (s.hostWrote bytes n).pc = s.pc := rfl
@[simp] theorem State.hostWrote_sp (bytes : List Byte) (n : Nat) : (s.hostWrote bytes n).sp = s.sp := rfl
@[simp] theorem State.hostWrote_progLen (bytes : List Byte) (n : Nat) : (s.hostWrote bytes n).progLen = s.progLen := rfl
@[simp] theorem State.hostWrote_prog (bytes : List Byte) (n : Nat) : (s.hostWrote bytes n).prog = s.prog := rfl
@[simp] theorem State.hostWrote_stack (bytes : List Byte) (n : Nat) : (s.hostWrote bytes n).stack = s.stack := rfl
@[simp] theorem State.hostWrote_status (bytes : List Byte) (n : Nat) : (s.hostWrote bytes n).status = s.status := rfl
@[simp] theorem State.hostWrote_log (bytes : List Byte) (n : Nat) : (s.hostWrote bytes n).log = s.log ++ [.write bytes n] := rfl
@[simp] theorem State.hostWrote_hostTurn (bytes : List Byte) (n : Nat) : (s.hostWrote bytes n).hostTurn = s.hostTurn + 1 := rfl

@[simp] theorem State.hostSlept_acc (ms : Nat) : (s.hostSlept ms).acc = s.acc := rfl
@[simp] theorem State.hostSlept_pc (ms : Nat) : (s.hostSlept ms).pc = s.pc := rfl
@[simp] theorem State.hostSlept_sp (ms : Nat) : (s.hostSlept ms).sp = s.sp := rfl
@[simp] theorem State.hostSlept_progLen (ms : Nat) : (s.hostSlept ms).progLen = s.progLen := rfl
@[simp] theorem State.hostSlept_prog (ms : Nat) : (s.hostSlept ms).prog = s.prog := rfl
@[simp] theorem State.hostSlept_stack (ms : Nat) : (s.hostSlept ms).stack = s.stack := rfl
@[simp] theorem State.hostSlept_status (ms : Nat) : (s.hostSlept ms).status = s.status := rfl
@[simp] theorem State.hostSlept_log (ms : Nat) : (s.hostSlept ms).log = s.log ++ [.sleep ms] := rfl
@[simp] theorem State.hostSlept_hostTurn (ms : Nat) : (s.hostSlept ms).hostTurn = s.hostTurn := rfl

@[simp] theorem State.putZeros_acc (first : Int) (n : Nat) : (s.putZeros first n).acc = s.acc := by
  induction n generalizing s first with
  | zero => rfl
  | succ n ih => simp [State.putZeros, ih]

@[simp] theorem State.putZeros_pc (first : Int) (n : Nat) : (s.putZeros first n).pc = s.pc := by
  induction n generalizing s first with
  | zero => rfl
  | succ n ih => simp [State.putZeros, ih]

@[simp] theorem State.putZeros_sp (first : Int) (n : Nat) : (s.putZeros first n).sp = s.sp := by
  induction n generalizing s first with
  | zero => rfl
  | succ n ih => simp [State.putZeros, ih]

@[simp] theorem State.putZeros_progLen (first : Int) (n : Nat) : (s.putZeros first n).progLen = s.progLen := by
  induction n generalizing s first with
  | zero => rfl
  | succ n ih => simp [State.putZeros, ih]

@[simp] theorem State.putZeros_prog (first : Int) (n : Nat) : (s.putZeros first n).prog = s.prog := by
  induction n generalizing s first with
  | zero => rfl
  | succ n ih => simp [State.putZeros, ih]

@[simp] theorem State.putZeros_status (first : Int) (n : Nat) : (s.putZeros first n).status = s.status := by
  induction n generalizing s first with
  | zero => rfl
  | succ n ih => simp [State.putZeros, ih]

@[simp] theorem State.putZeros_log (first : Int) (n : Nat) : (s.putZeros first n).log = s.log := by
  induction n generalizing s first with
  | zero => rfl
  | succ n ih => simp [State.putZeros, ih]

@[simp] theorem State.putZeros_hostTurn (first : Int) (n : Nat) : (s.putZeros first n).hostTurn = s.hostTurn := by
  induction n generalizing s first with
  | zero => rfl
  | succ n ih => simp [State.putZeros, ih]

@[simp] theorem State.setAcc_cell? (v : Word) (i : Int) : (s.setAcc v).cell? i = s.cell? i := rfl

@[simp] theorem State.setSp_cell? (j i : Int) : (s.setSp j).cell? i = s.cell? i := rfl

end Sys2Proof.Machine
end

