-- ==== Sys2Proof/Laws/Ops.lean ====
section
/-! SUPPORT. One lemma for each shared operation, saying once what it answers; the meanings' lemmas cite these. -/

namespace Sys2Proof.Machine

/-! ## Checked computations -/

@[simp] theorem orRaise_ok {α : Type} (s : State) (v : α) (go : α → Answer) : orRaise s (.ok v) go = go v := rfl

@[simp] theorem orRaise_error {α : Type} (s : State) (cause : FaultCause) (go : α → Answer) :
    orRaise s (.error cause) go = .next (s.faulted cause) := rfl

/-- Everything `orRaise` can do. -/
theorem orRaise_next {α : Type} {s t : State} {c : Checked α} {go : α → Answer} (h : orRaise s c go = .next t) :
    (∃ v, c = .ok v ∧ go v = .next t) ∨ ∃ cause, c = .error cause ∧ t = s.faulted cause := by
  cases c with
  | ok v => exact .inl ⟨v, rfl, h⟩
  | error cause => exact .inr ⟨cause, rfl, (Host.Outcome.next.inj h).symm⟩

/-- `orRaise` answers a next state if every continuation does. -/
theorem orRaise_answers {α : Type} (s : State) (c : Checked α) {go : α → Answer} (h : ∀ v, ∃ t, go v = .next t) :
    ∃ t, orRaise s c go = .next t := by
  cases c with
  | ok v => exact h v
  | error cause => exact ⟨_, rfl⟩

/-! ## The program store -/

theorem State.progWord?_of_range {s : State} {a : Int} (h₀ : 0 ≤ a) (h : a < s.progLen) :
    s.progWord? a = some (s.prog.readWord a.toNat) :=
  if_pos ⟨h₀, h⟩

theorem State.progWord?_eq_some {s : State} {a : Int} {v : Word} (h : s.progWord? a = some v) :
    0 ≤ a ∧ a < s.progLen ∧ s.prog.readWord a.toNat = v := by
  unfold State.progWord? at h
  split_ifs at h with hr
  exact ⟨hr.1, hr.2, Option.some.inj h⟩

theorem State.inProg_iff {s : State} {a : Int} : s.inProg a = true ↔ 0 ≤ a ∧ a < s.progLen := by
  simp [State.inProg]

theorem State.readProg_of_word {s : State} {a : Int} {v : Word} (h : s.progWord? a = some v) : s.readProg a = .ok v := by
  obtain ⟨h₀, h₁, h₂⟩ := State.progWord?_eq_some h
  rw [State.readProg, if_pos (State.inProg_iff.2 ⟨h₀, h₁⟩), h₂]

theorem State.readProg_out {s : State} {a : Int} (h : a < 0 ∨ s.progLen ≤ a) : s.readProg a = .error (.addressFault a) :=
  if_neg fun hi => by have := State.inProg_iff.1 hi; omega

/-- Everything a read of P can answer. -/
theorem State.readProg_cases (s : State) (a : Int) :
    (0 ≤ a ∧ a < s.progLen ∧ s.readProg a = .ok (s.prog.readWord a.toNat)) ∨ s.readProg a = .error (.addressFault a) := by
  by_cases h : 0 ≤ a ∧ a < s.progLen
  · exact .inl ⟨h.1, h.2, State.readProg_of_word (State.progWord?_of_range h.1 h.2)⟩
  · exact .inr (State.readProg_out (by omega))

theorem State.writeProg_in {s : State} {a : Int} (v : Word) (h₀ : 0 ≤ a) (h : a < s.progLen) :
    s.writeProg a v = .ok { s with prog := s.prog.writeWord a.toNat v } :=
  if_pos (State.inProg_iff.2 ⟨h₀, h⟩)

theorem State.writeProg_out {s : State} {a : Int} (v : Word) (h : a < 0 ∨ s.progLen ≤ a) :
    s.writeProg a v = .error (.addressFault a) :=
  if_neg fun hi => by have := State.inProg_iff.1 hi; omega

/-- Everything a write of P can answer. -/
theorem State.writeProg_cases (s : State) (a : Int) (v : Word) :
    (0 ≤ a ∧ a < s.progLen ∧ s.writeProg a v = .ok { s with prog := s.prog.writeWord a.toNat v }) ∨
      s.writeProg a v = .error (.addressFault a) := by
  by_cases h : 0 ≤ a ∧ a < s.progLen
  · exact .inl ⟨h.1, h.2, State.writeProg_in v h.1 h.2⟩
  · exact .inr (State.writeProg_out v (by omega))

/-! ## The operand stack -/

@[simp] theorem State.putCell_cell?_same {s : State} {i : Int} (v : Word) (h : 0 ≤ i) : (s.putCell i v).cell? i = some v := by
  simp [State.cell?, show ¬i < 0 by omega]

@[simp] theorem State.putCell_cell?_other {s : State} {i j : Int} (v : Word) (h : 0 ≤ i) (hij : j ≠ i) :
    (s.putCell i v).cell? j = s.cell? j := by
  unfold State.cell?
  split_ifs with hj
  · rfl
  · exact Cells.find?_put_other _ _ (by omega)

/-- A written cell stays written. -/
theorem State.putCell_isSome {s : State} {i j : Int} (v : Word) (h : (s.cell? j).isSome) :
    ((s.putCell i v).cell? j).isSome := by
  unfold State.cell? at h ⊢
  split_ifs at h ⊢ with hj
  · exact h
  · rw [State.putCell_stack]
    by_cases hji : j.toNat = i.toNat
    · simp [hji]
    · rwa [Cells.find?_put_other _ _ hji]

theorem State.putZeros_cell?_in {s : State} {first j : Int} {n : Nat} (h₀ : 0 ≤ first) (h₁ : first ≤ j)
    (h₂ : j < first + n) : (s.putZeros first n).cell? j = some 0 := by
  have outside : ∀ (n : Nat) (s : State) (first j : Int), 0 ≤ first → j < first →
      (s.putZeros first n).cell? j = s.cell? j := by
    intro n
    induction n with
    | zero => intros; rfl
    | succ n ih =>
      intro s first j h₀ hj
      rw [State.putZeros, ih _ _ _ (by omega) (by omega), State.putCell_cell?_other _ h₀ (by omega)]
  induction n generalizing s first with
  | zero => omega
  | succ n ih =>
    rw [State.putZeros]
    by_cases hj : j = first
    · subst hj
      rw [outside _ _ _ _ (by omega) (by omega), State.putCell_cell?_same _ h₀]
    · exact ih (by omega) (by omega) (by omega)

theorem State.putZeros_cell?_out {s : State} {first j : Int} {n : Nat} (h₀ : 0 ≤ first)
    (h : j < first ∨ first + n ≤ j) : (s.putZeros first n).cell? j = s.cell? j := by
  induction n generalizing s first with
  | zero => rfl
  | succ n ih => rw [State.putZeros, ih (by omega) (by omega), State.putCell_cell?_other _ h₀ (by omega)]

theorem State.putZeros_isSome {s : State} {first j : Int} {n : Nat} (h : (s.cell? j).isSome) :
    ((s.putZeros first n).cell? j).isSome := by
  induction n generalizing s first with
  | zero => exact h
  | succ n ih => exact ih (State.putCell_isSome 0 h)

theorem State.liveCell?_eq_some {s : State} {i : Int} {v : Word} (h : s.liveCell? i = some v) :
    0 ≤ i ∧ i ≤ s.sp ∧ s.cell? i = some v := by
  unfold State.liveCell? at h
  split_ifs at h with hr
  exact ⟨hr.1, hr.2, h⟩

theorem State.inWindow_iff {s : State} {i : Int} : s.inWindow i = true ↔ 0 ≤ i ∧ i ≤ s.sp := by
  simp [State.inWindow]

theorem State.readMarked_some {s : State} {i : Int} {v : Word} (h : s.cell? i = some v) : s.readMarked i = .ok v := by
  rw [State.readMarked, h]

theorem State.readMarked_none {s : State} {i : Int} (h : s.cell? i = none) :
    s.readMarked i = .error (.stackFault .unwritten i) := by
  rw [State.readMarked, h]

theorem State.readCell_live {s : State} {i : Int} {v : Word} (h : s.liveCell? i = some v) : s.readCell i = .ok v := by
  obtain ⟨h₀, h₁, h₂⟩ := State.liveCell?_eq_some h
  rw [State.readCell, if_pos (State.inWindow_iff.2 ⟨h₀, h₁⟩), State.readMarked_some h₂]

theorem State.readCell_out {s : State} {i : Int} (h : i < 0 ∨ s.sp < i) : s.readCell i = .error (.stackFault .window i) :=
  if_neg fun hi => by have := State.inWindow_iff.1 hi; omega

theorem State.readCell_unwritten {s : State} {i : Int} (h₀ : 0 ≤ i) (h₁ : i ≤ s.sp) (h : s.cell? i = none) :
    s.readCell i = .error (.stackFault .unwritten i) := by
  rw [State.readCell, if_pos (State.inWindow_iff.2 ⟨h₀, h₁⟩), State.readMarked_none h]

/-- Everything a stack-relative read can answer. -/
theorem State.readCell_cases (s : State) (i : Int) :
    (∃ v, 0 ≤ i ∧ i ≤ s.sp ∧ s.cell? i = some v ∧ s.readCell i = .ok v) ∨
      (0 ≤ i ∧ i ≤ s.sp ∧ s.cell? i = none ∧ s.readCell i = .error (.stackFault .unwritten i)) ∨
      s.readCell i = .error (.stackFault .window i) := by
  by_cases h : 0 ≤ i ∧ i ≤ s.sp
  · cases hc : s.cell? i with
    | none => exact .inr (.inl ⟨h.1, h.2, rfl, State.readCell_unwritten h.1 h.2 hc⟩)
    | some v => exact .inl ⟨v, h.1, h.2, rfl, State.readCell_live (by simp [State.liveCell?, h, hc])⟩
  · exact .inr (.inr (State.readCell_out (by omega)))

theorem State.writeCell_in {s : State} {i : Int} (v : Word) (h₀ : 0 ≤ i) (h₁ : i ≤ s.sp) :
    s.writeCell i v = .ok (s.putCell i v) :=
  if_pos (State.inWindow_iff.2 ⟨h₀, h₁⟩)

theorem State.writeCell_out {s : State} {i : Int} (v : Word) (h : i < 0 ∨ s.sp < i) :
    s.writeCell i v = .error (.stackFault .window i) :=
  if_neg fun hi => by have := State.inWindow_iff.1 hi; omega

/-- Everything a stack-relative write can answer. -/
theorem State.writeCell_cases (s : State) (i : Int) (v : Word) :
    (0 ≤ i ∧ i ≤ s.sp ∧ s.writeCell i v = .ok (s.putCell i v)) ∨ s.writeCell i v = .error (.stackFault .window i) := by
  by_cases h : 0 ≤ i ∧ i ≤ s.sp
  · exact .inl ⟨h.1, h.2, State.writeCell_in v h.1 h.2⟩
  · exact .inr (State.writeCell_out v (by omega))

/-! ## The checks of Call, Ret, Push, Pop and Sleep -/

theorem checkCount_cases (n : Int) :
    (0 ≤ n ∧ checkCount n = .ok ()) ∨ (n < 0 ∧ checkCount n = .error (.stackFault .negcount n)) := by
  unfold checkCount
  split_ifs with h
  · exact .inr ⟨h, rfl⟩
  · exact .inl ⟨by omega, rfl⟩

theorem checkRoom_cases (top : Int) :
    (top ≤ 255 ∧ checkRoom top = .ok ()) ∨ (255 < top ∧ checkRoom top = .error (.stackFault .overflow top)) := by
  unfold checkRoom stackCap
  split_ifs with h
  · exact .inr ⟨by omega, rfl⟩
  · exact .inl ⟨by omega, rfl⟩

theorem checkDepth_cases (i : Int) :
    (0 ≤ i ∧ checkDepth i = .ok ()) ∨ (i < 0 ∧ checkDepth i = .error (.stackFault .underflow i)) := by
  unfold checkDepth
  split_ifs with h
  · exact .inr ⟨h, rfl⟩
  · exact .inl ⟨by omega, rfl⟩

theorem checkByteOffset_cases (bo : Int) :
    (0 ≤ bo ∧ checkByteOffset bo = .ok ()) ∨ (bo < 0 ∧ checkByteOffset bo = .error (.stackFault .negbyteoffset bo)) := by
  unfold checkByteOffset
  split_ifs with h
  · exact .inr ⟨h, rfl⟩
  · exact .inl ⟨by omega, rfl⟩

theorem checkSleep_cases (ms : Int) :
    (0 ≤ ms ∧ ms ≤ 1000 ∧ checkSleep ms = .ok ()) ∨
      ((ms < 0 ∨ 1000 < ms) ∧ checkSleep ms = .error (.sleepRange ms)) := by
  unfold checkSleep sleepMin sleepMax
  split_ifs with h
  · exact .inr ⟨by omega, rfl⟩
  · exact .inl ⟨by omega, by omega, rfl⟩

/-! ## The ALU -/

theorem word_toInt (i : Int) : (word i).toInt = i.bmod (2 ^ 64) := by
  simp [word, BitVec.toInt_ofInt]

/-- An integer that fits a word is kept by it. -/
theorem word_toInt_of_fits {i : Int} (h₀ : -2 ^ 63 ≤ i) (h₁ : i < 2 ^ 63) : (word i).toInt = i := by
  rw [word_toInt, Int.bmod_eq_of_le] <;> omega

@[simp] theorem word_self (v : Word) : word v.toInt = v := by
  simp [word]

@[simp] theorem aluAdd_toInt (a b : Word) : (aluAdd a b).toInt = (a.toInt + b.toInt).bmod (2 ^ 64) := word_toInt _

@[simp] theorem aluSub_toInt (a b : Word) : (aluSub a b).toInt = (a.toInt - b.toInt).bmod (2 ^ 64) := word_toInt _

@[simp] theorem aluMul_toInt (a b : Word) : (aluMul a b).toInt = (a.toInt * b.toInt).bmod (2 ^ 64) := word_toInt _

@[simp] theorem immediate_toInt (x : BitVec 56) : (immediate x).toInt = x.toInt :=
  BitVec.toInt_signExtend_of_le (by omega)

@[simp] theorem deltaWord_toInt (delta : BitVec 8) : (deltaWord delta).toInt = delta.toInt :=
  BitVec.toInt_signExtend_of_le (by omega)

theorem int_bounds (v : Word) : -2 ^ 63 ≤ v.toInt ∧ v.toInt < 2 ^ 63 := by
  have := BitVec.le_toInt v
  have := BitVec.toInt_lt (x := v)
  omega

theorem operand_bounds (x : BitVec 56) : -2 ^ 55 ≤ x.toInt ∧ x.toInt < 2 ^ 55 := by
  have := BitVec.le_toInt x
  have := BitVec.toInt_lt (x := x)
  omega

/-- Everything the division check can answer. -/
theorem divCheck_cases (overflow : Config.DivOverflow) (a b : Word) :
    (b.toInt ≠ 0 ∧ (¬DivisionOverflows a.toInt b.toInt ∨ overflow ≠ .fault) ∧ divCheck overflow a b = .ok ()) ∨
      (b.toInt = 0 ∧ divCheck overflow a b = .error .divideByZero) ∨
      (DivisionOverflows a.toInt b.toInt ∧ overflow = .fault ∧ divCheck overflow a b = .error .divideOverflow) := by
  unfold divCheck DivisionOverflows
  split_ifs with h₀ h₁
  · exact .inr (.inl ⟨h₀, rfl⟩)
  · exact .inr (.inr ⟨⟨h₁.1, h₁.2.1⟩, h₁.2.2, rfl⟩)
  · refine .inl ⟨h₀, ?_, rfl⟩
    by_cases ho : overflow = .fault
    · exact .inl fun h => h₁ ⟨h.1, h.2, ho⟩
    · exact .inr ho

/-- The quotient and the remainder of a division that does not overflow are those of R105. -/
theorem quotient_remainder_isDivision {a b : Word} (hb : b.toInt ≠ 0) (ho : ¬DivisionOverflows a.toInt b.toInt) :
    IsDivision a.toInt b.toInt (quotient a b).toInt (remainder a b).toInt := by
  obtain ⟨ha₀, ha₁⟩ := int_bounds a
  obtain ⟨hb₀, hb₁⟩ := int_bounds b
  have hr : (a.toInt.tmod b.toInt).natAbs < b.toInt.natAbs := by
    rw [Int.natAbs_tmod]
    exact Nat.mod_lt _ (by omega)
  have hq : (a.toInt.tdiv b.toInt).natAbs ≤ a.toInt.natAbs := by
    rw [Int.natAbs_tdiv]
    exact Nat.div_le_self _ _
  have hqfit : a.toInt.tdiv b.toInt < 2 ^ 63 := by
    by_contra hge
    have hna : a.toInt.natAbs = 2 ^ 63 := by omega
    have ha : a.toInt = -2 ^ 63 := by omega
    have hb1 : b.toInt.natAbs = 1 := by
      by_contra hne
      have : a.toInt.natAbs / b.toInt.natAbs ≤ a.toInt.natAbs / 2 := Nat.div_le_div_left (by omega) (by omega)
      have hnat : (a.toInt.tdiv b.toInt).natAbs = a.toInt.natAbs / b.toInt.natAbs := Int.natAbs_tdiv _ _
      omega
    rcases Int.natAbs_eq b.toInt with h | h
    · rw [hb1] at h
      rw [h] at hge
      simp at hge
      omega
    · rw [hb1] at h
      exact ho ⟨ha, by simpa using h⟩
  have hsum := Int.tdiv_mul_add_tmod a.toInt b.toInt
  refine ⟨?_, ?_, fun h => ?_, fun h => ?_⟩
  · rw [quotient, remainder, word_toInt_of_fits (by omega) hqfit, word_toInt_of_fits (by omega) (by omega)]
    exact hsum
  · rw [remainder, word_toInt_of_fits (by omega) (by omega)]
    exact hr
  · rw [remainder, word_toInt_of_fits (by omega) (by omega)]
    exact Int.tmod_nonneg _ h
  · rw [remainder, word_toInt_of_fits (by omega) (by omega)]
    have := Int.tmod_nonneg b.toInt (show 0 ≤ -a.toInt by omega)
    rw [Int.neg_tmod] at this
    omega

end Sys2Proof.Machine
end

