-- ==== Sys2Proof/Laws/Effect.lean ====
section
/-! SUPPORT. Everything a step can do, said once: the kinds of next state an instruction can answer (`Effect`), that every
instruction answers one of them, and the same of `step`. The invariants are derived from this. -/

namespace Sys2Proof.Machine

/-- Where the pc can go: on by one, to a relative target, or to a popped word (R87, R88, R161). -/
def PcTarget (s : State) (p : Int) : Prop :=
  p = s.pc + 1 ∨ (∃ x : BitVec 56, p = s.pc + x.toInt) ∨ ∃ v : Word, p = v.toInt

/-- What the causes of a fault taken by an instruction promise. -/
structure CauseFits (s : State) (cause : FaultCause) : Prop where
  unwritten : ∀ i, cause = .stackFault .unwritten i → 0 ≤ i ∧ i ≤ s.sp ∧ s.cell? i = none
  notOutput : ∀ length accepted, cause ≠ .writeIO length accepted

/-- The next states a step can answer from `s`. -/
inductive Effect (s : State) : State → Prop where
  /-- a fault taken before any write (R90) -/
  | fault (cause : FaultCause) (h : CauseFits s cause) : Effect s (s.faulted cause)
  /-- the normal end (R81, R204) -/
  | halt (record : DiagRecord) (n : Int) (h : record = .exit s.acc n ∨ (record = .fallThrough s.acc ∧ n = 0)) :
      Effect s { s with log := s.log ++ [.diag record], status := .halted n }
  /-- the accumulator and the pc -/
  | registers (v : Word) (p : Int) (h : PcTarget s p) : Effect s { s with acc := v, pc := p }
  /-- Ret and Pop -/
  | drop (v : Word) (p sp : Int) (h : PcTarget s p) (h₀ : -1 ≤ sp) (h₁ : sp ≤ s.sp) :
      Effect s { s with acc := v, pc := p, sp := sp }
  /-- StoreR and IncrR -/
  | progWrite (v w : Word) (a : Int) (h₀ : 0 ≤ a) (h₁ : a < s.progLen) :
      Effect s { s with acc := v, prog := s.prog.writeWord a.toNat w, pc := s.pc + 1 }
  /-- StoreS, IncrS, IdivS and StoreSB -/
  | cellWrite (v w : Word) (i : Int) (h₀ : 0 ≤ i) (h₁ : i ≤ s.sp) :
      Effect s { s with acc := v, stack := Cells.put s.stack i.toNat w, pc := s.pc + 1 }
  /-- Call and Push: n zero cells, a word on top -/
  | push (w : Word) (n : Nat) (p : Int) (h : PcTarget s p) (h₁ : s.sp + n + 1 ≤ 255) :
      Effect s { (s.putZeros (s.sp + 1) n).putCell (s.sp + n + 1) w with sp := s.sp + n + 1, pc := p }
  /-- Sleep -/
  | sleep (ms : Nat) : Effect s { s with log := s.log ++ [.sleep ms], pc := s.pc + 1 }
  /-- a Write the host accepted whole -/
  | wrote (v : Word) (bytes : List Byte) :
      Effect s { s.hostWrote bytes bytes.length with acc := v, pc := s.pc + 1 }
  /-- a Write the host did not accept whole (R211) -/
  | writeFailed (bytes : List Byte) (n : Nat) (h : n < bytes.length) :
      Effect s (((s.hostWrote bytes n).setAcc (word (-1))).faulted (.writeIO bytes.length n))

variable {s t : State}

/-! ## The ends of a meaning -/

theorem effect_advance_acc {v : Word} (h : advance (s.setAcc v) = .next t) : Effect s t := by
  cases h
  exact .registers v _ (.inl rfl)

theorem effect_jumpTo {x : BitVec 56} (h : jumpTo (progAddr s x.toInt) s = .next t) : Effect s t := by
  cases h
  exact .registers s.acc _ (.inr (.inl ⟨x, rfl⟩))

theorem effect_faulted {cause : FaultCause} (h : CauseFits s cause) (ht : t = s.faulted cause) : Effect s t :=
  ht ▸ .fault cause h

/-- A cause that is neither an unwritten read nor a failed output promises nothing. -/
theorem CauseFits.other {cause : FaultCause} (h₁ : ∀ i, cause ≠ .stackFault .unwritten i)
    (h₂ : ∀ l n, cause ≠ .writeIO l n) : CauseFits s cause :=
  ⟨fun i h => absurd h (h₁ i), h₂⟩

/-! ## Checked accesses: what they read, or a cause that fits -/

theorem readProg_fits {a : Int} {cause : FaultCause} (h : s.readProg a = .error cause) : CauseFits s cause := by
  rcases s.readProg_cases a with ⟨_, _, h'⟩ | h' <;> rw [h'] at h <;> cases h
  exact .other (by simp) (by simp)

theorem readCell_fits {i : Int} {cause : FaultCause} (h : s.readCell i = .error cause) : CauseFits s cause := by
  rcases s.readCell_cases i with ⟨_, _, _, _, h'⟩ | ⟨h₀, h₁, hc, h'⟩ | h' <;> rw [h'] at h <;> cases h
  · exact ⟨fun j hj => by cases hj; exact ⟨h₀, h₁, hc⟩, by simp⟩
  · exact .other (by simp) (by simp)

theorem aluDiv_fits {a b : Word} {o : Config.DivOverflow} {cause : FaultCause} (h : aluDiv o a b = .error cause) :
    CauseFits s cause := by
  rw [aluDiv] at h
  rcases divCheck_cases o a b with ⟨_, _, h'⟩ | ⟨_, h'⟩ | ⟨_, _, h'⟩ <;> rw [h'] at h <;> cases h <;>
    exact .other (by simp) (by simp)

theorem aluMod_fits {a b : Word} {o : Config.DivOverflow} {cause : FaultCause} (h : aluMod o a b = .error cause) :
    CauseFits s cause := by
  rw [aluMod] at h
  rcases divCheck_cases o a b with ⟨_, _, h'⟩ | ⟨_, h'⟩ | ⟨_, _, h'⟩ <;> rw [h'] at h <;> cases h <;>
    exact .other (by simp) (by simp)

theorem aluShift_fits {a : Word} {x : Int} {o : Config.ShiftOversize} {cause : FaultCause}
    (h : aluShift o a x = .error cause) : CauseFits s cause := by
  unfold aluShift at h
  split at h
  · cases h
  · cases o <;> cases h
    exact .other (by simp) (by simp)

theorem readByteOf_fits {space : Space} {b : Int} {cause : FaultCause} (h : s.readByteOf space b = .error cause) :
    CauseFits s cause := by
  unfold State.readByteOf at h
  cases space <;> simp only [State.readWordOf] at h <;> split at h <;> cases h
  · exact readProg_fits ‹_›
  · exact readCell_fits ‹_›

theorem readBytesOf_fits {space : Space} {b : Int} {n : Nat} {cause : FaultCause}
    (h : s.readBytesOf space b n = .error cause) : CauseFits s cause := by
  induction n generalizing b with
  | zero => cases h
  | succ n ih =>
    rw [State.readBytesOf] at h
    split at h
    · cases h
      exact readByteOf_fits ‹_›
    · split at h
      · cases h
        exact ih ‹_›
      · cases h

/-! ## Every instruction -/

theorem effect_accFromProg {f : Word → Word → Word} {x : BitVec 56} (h : accFromProg f x s = .next t) : Effect s t := by
  rcases orRaise_next h with ⟨v, _, h⟩ | ⟨cause, hc, ht⟩
  · exact effect_advance_acc h
  · exact effect_faulted (readProg_fits hc) ht

theorem effect_accFromCell {f : Word → Word → Word} {x : BitVec 56} (h : accFromCell f x s = .next t) : Effect s t := by
  rcases orRaise_next h with ⟨v, _, h⟩ | ⟨cause, hc, ht⟩
  · exact effect_advance_acc h
  · exact effect_faulted (readCell_fits hc) ht

theorem effect_jumpIf {taken : Bool} {x : BitVec 56} (h : jumpIf taken x s = .next t) : Effect s t := by
  unfold jumpIf at h
  split at h
  · exact effect_jumpTo h
  · exact effect_advance_acc (v := s.acc) h

theorem effect_divI {x : BitVec 56} (h : execDivI x s = .next t) : Effect s t := by
  rcases orRaise_next h with ⟨v, _, h⟩ | ⟨cause, hc, ht⟩
  · exact effect_advance_acc h
  · exact effect_faulted (aluDiv_fits hc) ht

theorem effect_modI {x : BitVec 56} (h : execModI x s = .next t) : Effect s t := by
  rcases orRaise_next h with ⟨v, _, h⟩ | ⟨cause, hc, ht⟩
  · exact effect_advance_acc h
  · exact effect_faulted (aluMod_fits hc) ht

theorem effect_shiftI {x : BitVec 56} (h : execShiftI x s = .next t) : Effect s t := by
  rcases orRaise_next h with ⟨v, _, h⟩ | ⟨cause, hc, ht⟩
  · exact effect_advance_acc h
  · exact effect_faulted (aluShift_fits hc) ht

theorem effect_divR {x : BitVec 56} (h : execDivR x s = .next t) : Effect s t := by
  rcases orRaise_next h with ⟨v, _, h⟩ | ⟨cause, hc, ht⟩
  · rcases orRaise_next h with ⟨v, _, h⟩ | ⟨cause, hc, ht⟩
    · exact effect_advance_acc h
    · exact effect_faulted (aluDiv_fits hc) ht
  · exact effect_faulted (readProg_fits hc) ht

theorem effect_divS {x : BitVec 56} (h : execDivS x s = .next t) : Effect s t := by
  rcases orRaise_next h with ⟨v, _, h⟩ | ⟨cause, hc, ht⟩
  · rcases orRaise_next h with ⟨v, _, h⟩ | ⟨cause, hc, ht⟩
    · exact effect_advance_acc h
    · exact effect_faulted (aluDiv_fits hc) ht
  · exact effect_faulted (readCell_fits hc) ht

/-- A write of P and then an advance with some accumulator. -/
theorem effect_writeProg {a : Int} {w : Word} {go : State → Answer}
    (hgo : ∀ u, ∃ v, go u = advance (u.setAcc v)) (h : orRaise s (s.writeProg a w) go = .next t) : Effect s t := by
  rcases s.writeProg_cases a w with ⟨h₀, h₁, h'⟩ | h' <;> rw [h'] at h
  · obtain ⟨v, hv⟩ := hgo { s with prog := s.prog.writeWord a.toNat w }
    rw [orRaise_ok, hv] at h
    cases h
    exact .progWrite v w a h₀ h₁
  · cases h
    exact .fault _ (.other (by simp) (by simp))

/-- A write of a cell and then an advance with some accumulator. -/
theorem effect_writeCell {i : Int} {w : Word} {go : State → Answer}
    (hgo : ∀ u, ∃ v, go u = advance (u.setAcc v)) (h : orRaise s (s.writeCell i w) go = .next t) : Effect s t := by
  rcases s.writeCell_cases i w with ⟨h₀, h₁, h'⟩ | h' <;> rw [h'] at h
  · obtain ⟨v, hv⟩ := hgo (s.putCell i w)
    rw [orRaise_ok, hv] at h
    cases h
    exact .cellWrite v w i h₀ h₁
  · cases h
    exact .fault _ (.other (by simp) (by simp))

theorem effect_incrR {delta : BitVec 8} {off : BitVec 48} (h : execIncrR delta off s = .next t) : Effect s t := by
  rcases orRaise_next h with ⟨v, _, h⟩ | ⟨cause, hc, ht⟩
  · exact effect_writeProg (fun u => ⟨_, rfl⟩) h
  · exact effect_faulted (readProg_fits hc) ht

theorem effect_incrCell {mirrors : Bool} {delta : BitVec 8} {off : BitVec 48}
    (h : incrCell mirrors delta off s = .next t) : Effect s t := by
  rcases orRaise_next h with ⟨v, _, h⟩ | ⟨cause, hc, ht⟩
  · refine effect_writeCell (fun u => ?_) h
    cases mirrors
    · exact ⟨u.acc, rfl⟩
    · exact ⟨_, rfl⟩
  · exact effect_faulted (readCell_fits hc) ht

theorem effect_idivS {x : BitVec 56} (h : execIdivS x s = .next t) : Effect s t := by
  rcases orRaise_next h with ⟨cur, _, h⟩ | ⟨cause, hc, ht⟩
  · rcases orRaise_next h with ⟨q, _, h⟩ | ⟨cause, hc, ht⟩
    · rcases orRaise_next h with ⟨r, _, h⟩ | ⟨cause, hc, ht⟩
      · exact effect_writeCell (fun u => ⟨_, rfl⟩) h
      · exact effect_faulted (aluMod_fits hc) ht
    · exact effect_faulted (aluDiv_fits hc) ht
  · exact effect_faulted (readCell_fits hc) ht

theorem effect_storeSB {slot : BitVec 8} {base : BitVec 48} (h : execStoreSB slot base s = .next t) : Effect s t := by
  rcases orRaise_next h with ⟨bo, _, h⟩ | ⟨cause, hc, ht⟩
  · rcases orRaise_next h with ⟨_, _, h⟩ | ⟨cause, hc, ht⟩
    · rcases orRaise_next h with ⟨old, _, h⟩ | ⟨cause, hc, ht⟩
      · exact effect_writeCell (fun u => ⟨u.acc, rfl⟩) h
      · exact effect_faulted (readCell_fits hc) ht
    · rcases checkByteOffset_cases bo.toInt with ⟨_, h'⟩ | ⟨_, h'⟩ <;> rw [h'] at hc <;> cases hc
      exact effect_faulted (.other (by simp) (by simp)) ht
  · exact effect_faulted (readCell_fits hc) ht

theorem effect_call {x : BitVec 56} (h : execCall x s = .next t) : Effect s t := by
  unfold execCall at h
  rcases checkRoom_cases (s.sp + 1) with ⟨h₁, h'⟩ | ⟨h₁, h'⟩ <;> rw [h'] at h <;> cases h
  · have := Effect.push (s := s) (word (s.pc + 1)) 0 (s.pc + x.toInt) (.inr (.inl ⟨x, rfl⟩)) (by simpa using h₁)
    simpa [State.putZeros, State.setSp, progAddr] using this
  · exact .fault _ (.other (by simp) (by simp))

theorem effect_push {x : BitVec 56} (h : execPush x s = .next t) : Effect s t := by
  unfold execPush at h
  rcases checkCount_cases x.toInt with ⟨h₀, h'⟩ | ⟨h₀, h'⟩ <;> rw [h'] at h
  · rw [orRaise_ok] at h
    rcases checkRoom_cases (s.sp + x.toInt + 1) with ⟨h₁, h'⟩ | ⟨h₁, h'⟩ <;> rw [h'] at h <;> cases h
    · have hx : ((x.toInt.toNat : Nat) : Int) = x.toInt := Int.toNat_of_nonneg h₀
      have := Effect.push (s := s) s.acc x.toInt.toNat (s.pc + 1) (.inl rfl) (by omega)
      rw [hx] at this
      simpa [State.setSp] using this
    · exact .fault _ (.other (by simp) (by simp))
  · cases h
    exact .fault _ (.other (by simp) (by simp))

theorem readMarked_fits {i : Int} {cause : FaultCause} (h₀ : 0 ≤ i) (h₁ : i ≤ s.sp) (h : s.readMarked i = .error cause) :
    CauseFits s cause := by
  cases hc : s.cell? i with
  | some v => rw [State.readMarked_some hc] at h; cases h
  | none =>
    rw [State.readMarked_none hc] at h
    cases h
    exact ⟨fun j hj => by cases hj; exact ⟨h₀, h₁, hc⟩, by simp⟩

theorem effect_ret {x : BitVec 56} (h : execRet x s = .next t) : Effect s t := by
  unfold execRet at h
  rcases checkCount_cases x.toInt with ⟨h₀, h'⟩ | ⟨h₀, h'⟩ <;> rw [h'] at h
  · rw [orRaise_ok] at h
    rcases checkDepth_cases (s.sp - x.toInt) with ⟨h₁, h'⟩ | ⟨h₁, h'⟩ <;> rw [h'] at h
    · rw [orRaise_ok] at h
      rcases orRaise_next h with ⟨v, _, h⟩ | ⟨cause, hc, ht⟩
      · cases h
        exact .drop s.acc v.toInt (s.sp - x.toInt - 1) (.inr (.inr ⟨v, rfl⟩)) (by omega) (by omega)
      · exact effect_faulted (readMarked_fits h₁ (by omega) hc) ht
    · cases h
      exact .fault _ (.other (by simp) (by simp))
  · cases h
    exact .fault _ (.other (by simp) (by simp))

theorem effect_pop {x : BitVec 56} (h : execPop x s = .next t) : Effect s t := by
  unfold execPop at h
  rcases checkCount_cases x.toInt with ⟨h₀, h'⟩ | ⟨h₀, h'⟩ <;> rw [h'] at h
  · rw [orRaise_ok] at h
    rcases checkDepth_cases (s.sp - x.toInt) with ⟨h₁, h'⟩ | ⟨h₁, h'⟩ <;> rw [h'] at h
    · rw [orRaise_ok] at h
      rcases orRaise_next h with ⟨v, _, h⟩ | ⟨cause, hc, ht⟩
      · cases h
        exact .drop v (s.pc + 1) (s.sp - 1 - x.toInt) (.inl rfl) (by omega) (by omega)
      · exact effect_faulted (readMarked_fits (by omega) le_rfl hc) ht
    · cases h
      exact .fault _ (.other (by simp) (by simp))
  · cases h
    exact .fault _ (.other (by simp) (by simp))

theorem effect_writeCall {space : Space} {w : Int} (h : writeCall space w s = .next t) : Effect s t := by
  rcases orRaise_next h with ⟨length, _, h⟩ | ⟨cause, hc, ht⟩
  · split at h
    · exact effect_advance_acc h
    · rcases orRaise_next h with ⟨bytes, _, h⟩ | ⟨cause, hc, ht⟩
      · unfold finishWrite at h
        split at h
        · cases h
          exact .writeFailed bytes _ ‹_›
        · cases h
          have : s.acceptedCount bytes.length = bytes.length := by
            have : s.acceptedCount bytes.length ≤ bytes.length := Nat.min_le_right _ _
            omega
          rw [this]
          exact .wrote (word bytes.length) bytes
      · exact effect_faulted (readBytesOf_fits hc) ht
  · exact effect_faulted (readByteOf_fits hc) ht

theorem effect_syscall {space : Space} {id : BitVec 8} {arg : BitVec 48} (h : syscall space id arg s = .next t) :
    Effect s t := by
  unfold syscall at h
  split at h
  · cases h
    exact .halt (.exit s.acc arg.toInt) arg.toInt (.inl rfl)
  · split at h
    · unfold sleepCall at h
      rcases checkSleep_cases arg.toInt with ⟨_, _, h'⟩ | ⟨_, h'⟩ <;> rw [h'] at h <;> cases h
      · exact .sleep _
      · exact .fault _ (.other (by simp) (by simp))
    · split at h
      · exact effect_writeCall h
      · cases h
        exact .fault _ (.other (by simp) (by simp))

/-- Every instruction answers only the next states of `Effect`. -/
theorem exec_effect {i : Instr} (h : exec i s = .next t) : Effect s t := by
  cases i with
  | loadI x | addI x | subI x | mulI x | andI x => exact effect_advance_acc h
  | divI x => exact effect_divI h
  | modI x => exact effect_modI h
  | shiftI x => exact effect_shiftI h
  | jnz x | jneg x | jpos x => exact effect_jumpIf h
  | jumpR x => exact effect_jumpTo h
  | loadR x => exact effect_accFromProg (f := fun _ v => v) h
  | addR x | subR x | mulR x => exact effect_accFromProg h
  | divR x => exact effect_divR h
  | storeR x => exact effect_writeProg (fun u => ⟨u.acc, rfl⟩) h
  | incrR delta off => exact effect_incrR h
  | call x => exact effect_call h
  | ret x => exact effect_ret h
  | push x => exact effect_push h
  | pop x => exact effect_pop h
  | loadS x => exact effect_accFromCell (f := fun _ v => v) h
  | addS x | subS x | mulS x => exact effect_accFromCell h
  | divS x => exact effect_divS h
  | storeS x => exact effect_writeCell (fun u => ⟨u.acc, rfl⟩) h
  | incrS delta off => exact effect_incrCell h
  | idivS x => exact effect_idivS h
  | storeSB slot base => exact effect_storeSB h
  | sys id arg | sysS id arg => exact effect_syscall h
  | sysExit arg => exact effect_syscall (space := .program) (id := Config.syscallExit) h
  | sysSleep arg => exact effect_syscall (space := .program) (id := Config.syscallSleep) h
  | sysWrite arg => exact effect_syscall (space := .program) (id := Config.syscallWrite) h
  | sysSExit arg => exact effect_syscall (space := .stack) (id := Config.syscallExit) h
  | sysSSleep arg => exact effect_syscall (space := .stack) (id := Config.syscallSleep) h
  | sysSWrite arg => exact effect_syscall (space := .stack) (id := Config.syscallWrite) h

/-- A step is taken only while running, and answers only the next states of `Effect`; the pc was below N, or the run
ended (R80 to R82). -/
theorem step_effect (h : step s = .next t) :
    s.status = .running ∧ Effect s t ∧ ((0 ≤ s.pc ∧ s.pc < s.progLen) ∨ (t.pc = s.pc ∧ t.status ≠ .running)) := by
  unfold step at h
  split at h
  · cases h
  · cases h
  · refine ⟨‹_›, ?_⟩
    split at h
    · cases h
      exact ⟨.halt (.fallThrough s.acc) 0 (.inr ⟨rfl, rfl⟩), .inr ⟨rfl, by simp⟩⟩
    · split at h
      · cases h
        exact ⟨.fault _ (.other (by simp) (by simp)), .inr ⟨rfl, by simp⟩⟩
      · have hpc : 0 ≤ s.pc ∧ s.pc < s.progLen := by
          simp only [State.pastEnd, State.beforeStart, decide_eq_true_eq] at *
          omega
        split at h
        · exact ⟨exec_effect h, .inl hpc⟩
        · cases h
          exact ⟨.fault _ (.other (by simp [decodeFault]) (by simp [decodeFault])), .inl hpc⟩

end Sys2Proof.Machine
end

