-- ==== Sys2Proof/Laws/Encoding.lean ====
section
/-! SUPPORT. The fields of a word made by the encoder, the word made of a word's fields, and the opcode map both ways. -/

namespace Sys2Proof

@[simp] theorem decodeOpcode_wordI (m : Mnemonic) (x : BitVec 56) : decodeOpcode (wordI m x) = opcodeOf m := by
  apply BitVec.eq_of_getLsbD_eq
  intro k hk
  rw [decodeOpcode, BitVec.getLsbD_extractLsb', wordI, BitVec.getLsbD_append, if_pos (by omega)]
  simp [hk]

@[simp] theorem operandField_wordI (m : Mnemonic) (x : BitVec 56) : operandField (wordI m x) = x := by
  apply BitVec.eq_of_getLsbD_eq
  intro k hk
  rw [operandField, BitVec.getLsbD_extractLsb', wordI, BitVec.getLsbD_append, if_neg (by omega)]
  simp [hk]

@[simp] theorem decodeOpcode_wordPacked (m : Mnemonic) (high : BitVec 48) (low : BitVec 8) :
    decodeOpcode (wordPacked m high low) = opcodeOf m := by
  apply BitVec.eq_of_getLsbD_eq
  intro k hk
  rw [decodeOpcode, BitVec.getLsbD_extractLsb', wordPacked, BitVec.getLsbD_append, if_pos (by omega)]
  simp [hk]

@[simp] theorem lowField_wordPacked (m : Mnemonic) (high : BitVec 48) (low : BitVec 8) :
    lowField (wordPacked m high low) = low := by
  apply BitVec.eq_of_getLsbD_eq
  intro k hk
  rw [lowField, BitVec.getLsbD_extractLsb', wordPacked, BitVec.getLsbD_append, if_neg (by omega),
    BitVec.getLsbD_append, if_pos (by omega)]
  simp [hk]

@[simp] theorem highField_wordPacked (m : Mnemonic) (high : BitVec 48) (low : BitVec 8) :
    highField (wordPacked m high low) = high := by
  apply BitVec.eq_of_getLsbD_eq
  intro k hk
  rw [highField, BitVec.getLsbD_extractLsb', wordPacked, BitVec.getLsbD_append, if_neg (by omega),
    BitVec.getLsbD_append, if_neg (by omega), show 16 + k - 8 - 8 = k by omega]
  simp [hk]

/-- A word is its plain operand and its opcode. -/
theorem wordI_fields {m : Mnemonic} {w : Word} (h : opcodeOf m = decodeOpcode w) : wordI m (operandField w) = w := by
  apply BitVec.eq_of_getLsbD_eq
  intro k hk
  rw [wordI, h, BitVec.getLsbD_append]
  split_ifs with hk'
  · simp [decodeOpcode, hk']
  · simp [operandField, show k - 8 < 56 by omega, show 8 + (k - 8) = k by omega]

/-- A word is its two packed fields and its opcode. -/
theorem wordPacked_fields {m : Mnemonic} {w : Word} (h : opcodeOf m = decodeOpcode w) :
    wordPacked m (highField w) (lowField w) = w := by
  apply BitVec.eq_of_getLsbD_eq
  intro k hk
  rw [wordPacked, h, BitVec.getLsbD_append]
  split_ifs with hk'
  · simp [decodeOpcode, hk']
  · rw [BitVec.getLsbD_append]
    split_ifs with hk''
    · simp [lowField, hk'', show 8 + (k - 8) = k by omega]
    · simp [highField, show k - 8 - 8 < 48 by omega, show 16 + (k - 8 - 8) = k by omega]

/-- Every mnemonic is found by its opcode value: the map is injective (R66). -/
@[simp] theorem mnemonicOf_opcodeOf (m : Mnemonic) : mnemonicOf (opcodeOf m) = some m := by
  cases m <;> decide

/-- A mnemonic found by an opcode value owns it. -/
theorem opcodeOf_of_mnemonicOf {op : BitVec 8} {m : Mnemonic} (h : mnemonicOf op = some m) : opcodeOf m = op := by
  simpa using List.find?_some h

end Sys2Proof
end

