-- ==== Sys2Proof/Laws/Frames.lean ====
section
/-! SUPPORT. The checks in the direction the meanings use them, and the frames of one store: what a write of one word of P
or of one cell of S leaves alone. -/

namespace Sys2Proof.Machine

/-! ## Checks that pass or fail -/

theorem checkCount_ok {n : Int} (h : 0 ≤ n) : checkCount n = .ok () := if_neg (by omega)

theorem checkCount_neg {n : Int} (h : n < 0) : checkCount n = .error (.stackFault .negcount n) := if_pos h

theorem checkRoom_ok {top : Int} (h : top ≤ 255) : checkRoom top = .ok () := if_neg (by simp only [stackCap]; omega)

theorem checkRoom_full {top : Int} (h : 255 < top) : checkRoom top = .error (.stackFault .overflow top) :=
  if_pos (by simp only [stackCap]; omega)

theorem checkDepth_ok {i : Int} (h : 0 ≤ i) : checkDepth i = .ok () := if_neg (by omega)

theorem checkDepth_neg {i : Int} (h : i < 0) : checkDepth i = .error (.stackFault .underflow i) := if_pos h

theorem checkByteOffset_ok {bo : Int} (h : 0 ≤ bo) : checkByteOffset bo = .ok () := if_neg (by omega)

theorem checkByteOffset_neg {bo : Int} (h : bo < 0) : checkByteOffset bo = .error (.stackFault .negbyteoffset bo) :=
  if_pos h

theorem divCheck_ok {overflow : Config.DivOverflow} {a b : Word} (hb : b.toInt ≠ 0)
    (ho : ¬DivisionOverflows a.toInt b.toInt) : divCheck overflow a b = .ok () := by
  rcases divCheck_cases overflow a b with ⟨_, _, h⟩ | ⟨h, _⟩ | ⟨h, _⟩
  · exact h
  · exact absurd h hb
  · exact absurd h ho

theorem divCheck_zero {overflow : Config.DivOverflow} {a b : Word} (hb : b.toInt = 0) :
    divCheck overflow a b = .error .divideByZero :=
  if_pos hb

theorem divCheck_overflow {a b : Word} (h : DivisionOverflows a.toInt b.toInt) :
    divCheck .fault a b = .error .divideOverflow := by
  simp [divCheck, h.1, h.2]

/-! ## Frames of the stores -/

/-- An index whose cell has a value is not negative. -/
theorem State.cell?_nonneg {s : State} {i : Int} {v : Word} (h : s.cell? i = some v) : 0 ≤ i := by
  unfold State.cell? at h
  split_ifs at h
  omega

/-- One word of P written, whatever happens to the other fields. -/
theorem progBut_of_writeWord {s t : State} {a : Int} {v : Word} (h₀ : 0 ≤ a) (h₁ : a < s.progLen)
    (hn : t.progLen = s.progLen) (hp : t.prog = s.prog.writeWord a.toNat v) : ProgBut s t a v := by
  refine ⟨?_, fun b hb => ?_⟩
  · rw [State.progWord?_of_range h₀ (by omega), hp, Memory.readWord_writeWord_same]
  · rw [hp]
    exact Memory.readByte_writeWord_outside _ _ _ _ (by omega)

/-- One cell of S written, whatever happens to the other fields. -/
theorem stackBut_of_putCell {s t : State} {i : Int} {v : Word} (h₀ : 0 ≤ i) (ht : t.stack = (s.putCell i v).stack) :
    StackBut s t i v := by
  have hc : ∀ j, t.cell? j = (s.putCell i v).cell? j := fun j => by simp only [State.cell?, ht]
  exact ⟨by rw [hc, State.putCell_cell?_same v h₀], fun j hj => by rw [hc, State.putCell_cell?_other v h₀ hj]⟩

end Sys2Proof.Machine
end

