-- ==== Sys2Proof/Laws/Loader.lean ====
section
/-! SUPPORT. The header check of the loader on images that begin with MAGIC, delivered whole or cut short, and the length of
a program's bytes. -/

namespace Sys2Proof.Machine

/-- The bytes of a program are eight for each word. -/
theorem flatMap_leBytes_length (words : List Word) : (words.flatMap leBytes).length = 8 * words.length := by
  induction words with
  | nil => rfl
  | cons w rest ih =>
    rw [List.flatMap_cons, List.length_append, ih, List.length_cons]
    simp only [leBytes, List.length_cons, List.length_nil]
    omega

/-- MAGIC is eight bytes: taking eight or more takes it all. -/
theorem magic_take {n : Nat} (h : 8 ≤ n) : magic.take n = magic :=
  List.take_of_length_le h

/-- However much of an image that begins with MAGIC is delivered, its header is no mismatch. -/
theorem header_of_prefix (rest : List Byte) (n : Nat) :
    ((magic ++ rest).take n).take 8 = magic.take ((magic ++ rest).take n).length := by
  have hm : magic.length = 8 := rfl
  have h8 : (magic ++ rest).take 8 = magic.take 8 := List.take_append_of_le_length (by omega)
  rw [List.take_take, List.length_take, List.length_append, hm]
  by_cases h : 8 ≤ n
  · rw [min_eq_left h, h8, magic_take (by omega), magic_take (by omega)]
  · rw [min_eq_right (by omega), min_eq_left (by omega), List.take_append_of_le_length (by omega)]

end Sys2Proof.Machine
end

