-- ==== Sys2Proof/Laws/PerInstr.lean ====
section
/-! SUPPORT. One lemma for each constructor of Instr, of a family named in LAWS.json. -/

namespace Sys2Proof.Laws

/-- The word of an instruction carries the opcode value of its mnemonic in bits 7:0 (R60, R66, R79). -/
def OpcodeByte.Statement (i : Instr) : Prop :=
  decodeOpcode (encode i) = opcodeOf i.mnemonic

namespace OpcodeByte

theorem loadI (x : BitVec 56) : Statement (.loadI x) := decodeOpcode_wordI _ _
theorem addI (x : BitVec 56) : Statement (.addI x) := decodeOpcode_wordI _ _
theorem subI (x : BitVec 56) : Statement (.subI x) := decodeOpcode_wordI _ _
theorem mulI (x : BitVec 56) : Statement (.mulI x) := decodeOpcode_wordI _ _
theorem divI (x : BitVec 56) : Statement (.divI x) := decodeOpcode_wordI _ _
theorem modI (x : BitVec 56) : Statement (.modI x) := decodeOpcode_wordI _ _
theorem shiftI (x : BitVec 56) : Statement (.shiftI x) := decodeOpcode_wordI _ _
theorem andI (x : BitVec 56) : Statement (.andI x) := decodeOpcode_wordI _ _
theorem jnz (x : BitVec 56) : Statement (.jnz x) := decodeOpcode_wordI _ _
theorem jneg (x : BitVec 56) : Statement (.jneg x) := decodeOpcode_wordI _ _
theorem jpos (x : BitVec 56) : Statement (.jpos x) := decodeOpcode_wordI _ _
theorem jumpR (x : BitVec 56) : Statement (.jumpR x) := decodeOpcode_wordI _ _
theorem loadR (x : BitVec 56) : Statement (.loadR x) := decodeOpcode_wordI _ _
theorem addR (x : BitVec 56) : Statement (.addR x) := decodeOpcode_wordI _ _
theorem subR (x : BitVec 56) : Statement (.subR x) := decodeOpcode_wordI _ _
theorem mulR (x : BitVec 56) : Statement (.mulR x) := decodeOpcode_wordI _ _
theorem divR (x : BitVec 56) : Statement (.divR x) := decodeOpcode_wordI _ _
theorem storeR (x : BitVec 56) : Statement (.storeR x) := decodeOpcode_wordI _ _
theorem incrR (delta : BitVec 8) (off : BitVec 48) : Statement (.incrR delta off) := decodeOpcode_wordPacked _ _ _
theorem call (x : BitVec 56) : Statement (.call x) := decodeOpcode_wordI _ _
theorem ret (x : BitVec 56) : Statement (.ret x) := decodeOpcode_wordI _ _
theorem push (x : BitVec 56) : Statement (.push x) := decodeOpcode_wordI _ _
theorem pop (x : BitVec 56) : Statement (.pop x) := decodeOpcode_wordI _ _
theorem loadS (x : BitVec 56) : Statement (.loadS x) := decodeOpcode_wordI _ _
theorem storeS (x : BitVec 56) : Statement (.storeS x) := decodeOpcode_wordI _ _
theorem addS (x : BitVec 56) : Statement (.addS x) := decodeOpcode_wordI _ _
theorem subS (x : BitVec 56) : Statement (.subS x) := decodeOpcode_wordI _ _
theorem mulS (x : BitVec 56) : Statement (.mulS x) := decodeOpcode_wordI _ _
theorem divS (x : BitVec 56) : Statement (.divS x) := decodeOpcode_wordI _ _
theorem incrS (delta : BitVec 8) (off : BitVec 48) : Statement (.incrS delta off) := decodeOpcode_wordPacked _ _ _
theorem idivS (x : BitVec 56) : Statement (.idivS x) := decodeOpcode_wordI _ _
theorem storeSB (slot : BitVec 8) (base : BitVec 48) : Statement (.storeSB slot base) := decodeOpcode_wordPacked _ _ _
theorem sys (id : BitVec 8) (arg : BitVec 48) : Statement (.sys id arg) := decodeOpcode_wordPacked _ _ _
theorem sysS (id : BitVec 8) (arg : BitVec 48) : Statement (.sysS id arg) := decodeOpcode_wordPacked _ _ _
theorem sysExit (arg : BitVec 48) : Statement (.sysExit arg) := decodeOpcode_wordPacked _ _ _
theorem sysSleep (arg : BitVec 48) : Statement (.sysSleep arg) := decodeOpcode_wordPacked _ _ _
theorem sysWrite (arg : BitVec 48) : Statement (.sysWrite arg) := decodeOpcode_wordPacked _ _ _
theorem sysSExit (arg : BitVec 48) : Statement (.sysSExit arg) := decodeOpcode_wordPacked _ _ _
theorem sysSSleep (arg : BitVec 48) : Statement (.sysSSleep arg) := decodeOpcode_wordPacked _ _ _
theorem sysSWrite (arg : BitVec 48) : Statement (.sysSWrite arg) := decodeOpcode_wordPacked _ _ _

end OpcodeByte

end Sys2Proof.Laws
end

