-- ==== Sys2Proof/Laws/Writer.lean ====
section
/-! SUPPORT. The bytes of a string: what a run of byte reads answers, and a byte read in either store. -/

namespace Sys2Proof.Machine

/-- If every byte can be read, the run answers them all, in increasing address order (R210). -/
theorem State.readBytesOf_ok {s : State} {space : Space} {b : Int} {n : Nat}
    (h : ∀ k : Nat, k < n → ∃ v, s.readByteOf space (b + k) = .ok v) :
    ∃ bytes, s.readBytesOf space b n = .ok bytes ∧ bytes.length = n ∧
      ∀ k : Nat, k < n → ∃ v, s.readByteOf space (b + k) = .ok v ∧ bytes[k]? = some v := by
  induction n generalizing b with
  | zero => exact ⟨[], rfl, rfl, fun k hk => absurd hk (by omega)⟩
  | succ n ih =>
    obtain ⟨v, hv⟩ := h 0 (by omega)
    rw [Int.natCast_zero, Int.add_zero] at hv
    obtain ⟨rest, hrest, hlen, hbytes⟩ := ih (b := b + 1) fun k hk => by
      have := h (k + 1) (by omega)
      rwa [show b + ((k + 1 : Nat) : Int) = b + 1 + k by omega] at this
    refine ⟨v :: rest, by rw [State.readBytesOf, hv]; simp only [hrest], by simp [hlen], fun k hk => ?_⟩
    cases k with
    | zero => exact ⟨v, by simpa using hv, rfl⟩
    | succ k =>
      obtain ⟨w, hw, hk'⟩ := hbytes k (by omega)
      exact ⟨w, by rw [show b + ((k + 1 : Nat) : Int) = b + 1 + k by omega]; exact hw, by simpa using hk'⟩

/-- The first byte that cannot be read gives the fault of the run (R209). -/
theorem State.readBytesOf_error {s : State} {space : Space} {b : Int} {n m : Nat} {cause : FaultCause} (hm : m < n)
    (h : ∀ k : Nat, k < m → ∃ v, s.readByteOf space (b + k) = .ok v)
    (hc : s.readByteOf space (b + m) = .error cause) : s.readBytesOf space b n = .error cause := by
  induction n generalizing b m with
  | zero => omega
  | succ n ih =>
    cases m with
    | zero =>
      rw [Int.natCast_zero, Int.add_zero] at hc
      rw [State.readBytesOf, hc]
    | succ m =>
      obtain ⟨v, hv⟩ := h 0 (by omega)
      rw [Int.natCast_zero, Int.add_zero] at hv
      have := ih (b := b + 1) (m := m) (by omega)
        (fun k hk => by
          have := h (k + 1) (by omega)
          rwa [show b + ((k + 1 : Nat) : Int) = b + 1 + k by omega] at this)
        (by rwa [show b + ((m + 1 : Nat) : Int) = b + 1 + m by omega] at hc)
      rw [State.readBytesOf, hv]
      simp only [this]

/-- A byte of P is read from its byte view (R43). -/
theorem State.readByteOf_program {s : State} {b : Int} (h₀ : 0 ≤ b) (h₁ : b / 8 < s.progLen) :
    s.readByteOf .program b = .ok (s.prog.readByte b.toNat) := by
  rw [State.readByteOf]
  simp only [State.readWordOf]
  rw [State.readProg_of_word (State.progWord?_of_range (by omega) h₁)]
  simp only
  rw [Memory.byteOf_readWord _ _ _ (by omega)]
  congr 2
  omega

theorem State.readByteOf_program_out {s : State} {b : Int} (h : b / 8 < 0 ∨ s.progLen ≤ b / 8) :
    s.readByteOf .program b = .error (.addressFault (b / 8)) := by
  rw [State.readByteOf]
  simp only [State.readWordOf, State.readProg_out h]

/-- A byte of S is read from its cell, in the live window and written. -/
theorem State.readByteOf_stack {s : State} {b : Int} {v : Word} (h : s.liveCell? (b / 8) = some v) :
    s.readByteOf .stack b = .ok (byteOf v (b % 8).toNat) := by
  rw [State.readByteOf]
  simp only [State.readWordOf, State.readCell_live h]

theorem State.readByteOf_stack_error {s : State} {b : Int} {cause : FaultCause} (h : s.readCell (b / 8) = .error cause) :
    s.readByteOf .stack b = .error cause := by
  rw [State.readByteOf]
  simp only [State.readWordOf, h]

/-- Byte 0 of a word is its value modulo 256: the length prefix (R208). -/
theorem byteOf_zero_toNat (v : Word) : (byteOf v 0).toNat = v.toNat % 2 ^ 8 := by
  simp [byteOf]

/-- A Write that reads its length prefix and all its bytes ends as the host's count says. -/
theorem writeCall_ok {s : State} {space : Space} {w : Int} {length : Byte} {bytes : List Byte}
    (hl : s.readByteOf space (8 * w) = .ok length) (hn : length.toNat ≠ 0)
    (hb : s.readBytesOf space (8 * w + 1) length.toNat = .ok bytes) :
    writeCall space w s = finishWrite bytes (s.acceptedCount bytes.length) s := by
  rw [writeCall, hl, orRaise_ok, if_neg hn, hb, orRaise_ok]

/-- The end of a Write of some bytes, whichever count the host accepts. -/
theorem finishWrite_outcome (s : State) (bytes : List Byte) :
    ∃ t, finishWrite bytes (s.acceptedCount bytes.length) s = .next t ∧ WriteOutcome s t bytes := by
  have hle : s.acceptedCount bytes.length ≤ bytes.length := Nat.min_le_right _ _
  unfold finishWrite
  split_ifs with h
  · refine ⟨_, rfl, hle, fun he => absurd he (by omega), fun _ => ?_⟩
    simp [State.faulted, State.hostWrote, State.emit, State.setAcc, State.record]
  · have he : s.acceptedCount bytes.length = bytes.length := by omega
    refine ⟨_, rfl, hle, fun _ => ?_, fun hlt => absurd hlt h⟩
    simp [State.hostWrote, State.emit, State.setAcc, he]

end Sys2Proof.Machine
end

