-- ==== Sys2Proof/Tests/Slice0.lean ====
section
/-! SUPPORT. Tests, each on values of spec/95_test_vectors.md or worked out by hand from the rule it names, and witnesses
that the hypotheses of the statements can be met. -/

namespace Sys2Proof.Tests

open Sys2Proof Sys2Proof.Machine

/-! ## Helpers -/

/-- Cells from an index upward. -/
def cellsFrom : Nat → List Word → CellStore
  | _, [] => []
  | i, v :: rest => (i, v) :: cellsFrom (i + 1) rest

/-- The state after reset with a program, an accumulator, a pc, and a stack whose cells are all written. -/
def at_ (pc : Int) (acc : Word) (program cells : List Word) : State :=
  { State.resetWith (program.flatMap leBytes) with
    acc := acc, pc := pc, sp := (cells.length : Int) - 1, stack := cellsFrom 0 cells }

/-- The next state of an answer, or the state itself. -/
def nextOf (s : State) : Answer → State
  | .next t => t
  | .fault _ => s
  | .refused _ => s

/-- The state after one step. -/
def after (s : State) : State := nextOf s (step s)

/-- Does the answer give a next state? -/
def goesOn : Answer → Bool
  | .next _ => true
  | .fault _ => false
  | .refused _ => false

/-- An answer that gives a next state gives this one. -/
theorem answer_eq {s : State} {a : Answer} (h : goesOn a = true) : a = .next (nextOf s a) := by
  cases a with
  | next t => rfl
  | fault r => cases h
  | refused r => cases h

/-- Accumulator, pc, sp and status after one step. -/
def regs (s : State) : Word × Int × Int × RunStatus :=
  ((after s).acc, (after s).pc, (after s).sp, (after s).status)

/-- The run status of a fault taken at index 0. -/
def fatal0 (cause : FaultCause) : RunStatus := .fatal ⟨cause, 0⟩

/-! ## WellFormed -/

theorem test_sys_of_a_syscall_id_is_refused :
    WellFormed (.sys 1 0) = false ∧ WellFormed (.sys 2 0) = false ∧ WellFormed (.sys 3 0) = false := by decide

theorem test_sysS_of_a_syscall_id_is_refused :
    WellFormed (.sysS 1 0) = false ∧ WellFormed (.sysS 2 0) = false ∧ WellFormed (.sysS 3 0) = false := by decide

theorem test_sys_of_another_id_is_well_formed :
    WellFormed (.sys 0 0) = true ∧ WellFormed (.sys 4 (-1)) = true ∧ WellFormed (.sysS 255 0) = true := by decide

/-! ## Decoding: words of 95_test_vectors.md, each with its fields written out by hand from R60 to R68 -/

/-- W1: opcode and operand of a word, whatever the opcode. -/
theorem test_fields_of_words :
    decodeOpcode 0xFFFFFFFFFFFFFFFF = 0xFF ∧ decodeOperand 0xFFFFFFFFFFFFFFFF = word (-1) ∧
    decodeOpcode 0x8000000000000001 = 1 ∧ decodeOperand 0x8000000000000001 = word (-36028797018963968) ∧
    decodeOperand 0x7FFFFFFFFFFFFF01 = word 36028797018963967 := by decide

/-- 2.2. -/
theorem test_decode_immediate :
    decode 0x8000000000000001 = .ok (.loadI 0x80000000000000) ∧ decode 0x0000000000000102 = .ok (.addI 1) ∧
    decode 0xFFFFFFFFFFFFFB03 = .ok (.subI (-5)) ∧ decode 0xFFFFFFFFFFFFFD04 = .ok (.mulI (-3)) ∧
    decode 0xFFFFFFFFFFFFFE05 = .ok (.divI (-2)) ∧ decode 0x0000000000000206 = .ok (.modI 2) ∧
    decode 0xFFFFFFFFFFFFC407 = .ok (.shiftI (-60)) ∧ decode 0x000000000000FF08 = .ok (.andI 0xFF) := by decide

/-- 2.3. -/
theorem test_decode_jumps :
    decode 0x0000000000000509 = .ok (.jnz 5) ∧ decode 0x000000000000050A = .ok (.jneg 5) ∧
    decode 0x000000000000050B = .ok (.jpos 5) ∧ decode 0xFFFFFFFFFFFFFE0C = .ok (.jumpR (-2)) := by decide

/-- 2.4. -/
theorem test_decode_program_relative :
    decode 0xFFFFFFFFFFFFFF0D = .ok (.loadR (-1)) ∧ decode 0x000000000000010E = .ok (.addR 1) ∧
    decode 0x000000000000020F = .ok (.subR 2) ∧ decode 0x0000000000000210 = .ok (.mulR 2) ∧
    decode 0x0000000000000311 = .ok (.divR 3) ∧ decode 0x0000000000000312 = .ok (.storeR 3) ∧
    decode 0x0000000000038013 = .ok (.incrR (-128) 3) ∧ decode 0x0000000000027F13 = .ok (.incrR 127 2) := by decide

/-- 2.5. -/
theorem test_decode_call_stack :
    decode 0x0000000000000514 = .ok (.call 5) ∧ decode 0xFFFFFFFFFFFFFF15 = .ok (.ret (-1)) ∧
    decode 0x0000000000010016 = .ok (.push 256) ∧ decode 0x0000000000000217 = .ok (.pop 2) := by decide

/-- 2.6. -/
theorem test_decode_stack_relative :
    decode 0xFFFFFFFFFFFFFF18 = .ok (.loadS (-1)) ∧ decode 0x0000000000000119 = .ok (.storeS 1) ∧
    decode 0x000000000000001A = .ok (.addS 0) ∧ decode 0x000000000000001B = .ok (.subS 0) ∧
    decode 0x000000000000011C = .ok (.mulS 1) ∧ decode 0x000000000000011D = .ok (.divS 1) ∧
    decode 0x000000000001801E = .ok (.incrS (-128) 1) ∧ decode 0x000000000000021F = .ok (.idivS 2) ∧
    decode 0x0000000000000120 = .ok (.storeSB 1 0) := by decide

/-- 2.7. -/
theorem test_decode_syscalls :
    decode 0xFFFFFFFFFFFF0121 = .ok (.sysExit (-1)) ∧ decode 0x0000000003E80221 = .ok (.sysSleep 1000) ∧
    decode 0x0000000000010321 = .ok (.sysWrite 1) ∧ decode 0x0000000000000421 = .ok (.sys 4 0) ∧
    decode 0x0000000000080122 = .ok (.sysSExit 8) ∧ decode 0xFFFFFFFFFFFF0222 = .ok (.sysSSleep (-1)) ∧
    decode 0x0000000000030322 = .ok (.sysSWrite 3) ∧ decode 0x000000000000FF22 = .ok (.sysS 255 0) := by decide

/-- 2.1. -/
theorem test_decode_refuses :
    decode 0 = .error ⟨0⟩ ∧ decode 0x23 = .error ⟨35⟩ ∧ decode 0xFF = .error ⟨255⟩ := by decide

/-- P1's third word in file order, and a file too short for a word (R73, R278). -/
theorem test_decode_bytes :
    decodeBytes [0x21, 0x01, 0x08, 0, 0, 0, 0, 0, 0x07] = .ok (.sysExit 8, [0x07]) ∧
    decodeBytes [0x21, 0x01, 0x08] = .error (.truncated 3) := by decide

/-- The words of P1 and P2 that the encoder gives. -/
theorem test_encode :
    encode (.incrR (-1) 5) = 0x000000000005FF13 ∧ encode (.sysExit 8) = 0x0000000000080121 ∧
    encode (.jnz (-4)) = 0xFFFFFFFFFFFFFC09 ∧ encode (.storeSB 0 1) = 0x0000000000010020 := by decide

/-- R74: the assembler's ranges; R75: Exit. -/
theorem test_assembler_ranges :
    asmI .loadI (2 ^ 55) = none ∧ asmI .loadI (-2 ^ 55) = some (.loadI 0x80000000000000) ∧
    asmINC .incrR 5 128 = none ∧ asmINC .incrR 5 (-1) = some (.incrR (-1) 5) ∧ asmSB 1 256 = none ∧
    asmSB 1 0 = some (.storeSB 0 1) ∧ asmSys 1 8 = some (.sysExit 8) ∧ asmSysS 3 1 = some (.sysSWrite 1) ∧
    asmExit 8 = some (.sysExit 8) := by decide

/-- What the host asks: the decoder's answer, and the very next step from reset. -/
theorem test_host_question :
    decodeTableWord 64 0x0000000000080121 = some (.sysExit 8) ∧ decodeTableWord 64 0 = none ∧
    exec (.loadI 5) (State.reset.withFetchWord 64 0x501) = step (State.reset.withFetchWord 64 0x501) ∧
    regs (State.reset.withFetchWord 64 0x501) = (5, 1, -1, .running) := by
  refine ⟨by decide, by decide, rfl, by decide⟩

/-! ## Loader (W10) and the ends of a run (2.1) -/

theorem test_loader_takes_the_magic_alone :
    load (ImageSource.whole [0x01, 0x47, 0x52, 0x4F, 0x4C, 0x20, 0x56, 0x4D]) = .loaded State.reset := by decide

theorem test_loader_takes_one_word :
    load (ImageSource.whole [0x01, 0x47, 0x52, 0x4F, 0x4C, 0x20, 0x56, 0x4D, 0x01, 0x05, 0, 0, 0, 0, 0, 0]) =
      .loaded (at_ 0 0 [0x0000000000000501] []) := by decide

theorem test_loader_refuses :
    load (ImageSource.whole [0x00, 0x47, 0x52, 0x4F, 0x4C, 0x20, 0x56, 0x4D]) = .loadError .badMagic ∧
    load (ImageSource.whole [0x01, 0x47, 0x52, 0x4F, 0x4C, 0x20, 0x56, 0x6D]) = .loadError .badMagic ∧
    load (ImageSource.whole [0x01, 0x47, 0x52, 0x4F, 0x4C, 0x20, 0x56]) = .loadError .badMagic ∧
    load (ImageSource.whole (magic ++ [1, 2, 3, 4, 5, 6, 7, 8, 9, 10, 11, 12])) = .loadError .sizeMismatch := by decide

/-- R281, and an image of 16 bytes of which the source delivers seven, then a wrong one. -/
theorem test_boot_refuses :
    boot none = .loadError .openFailure ∧ boot (some ⟨16, magic.take 7, true⟩) = .loadError .shortRead ∧
    boot (some ⟨16, [0x01, 0x48], true⟩) = .loadError .badMagic ∧ boot (some ⟨12, magic.take 7, true⟩) = .loadError .sizeMismatch ∧
    boot (some (ImageSource.whole magic)) = .loaded State.reset := by decide

theorem test_empty_program_falls_through :
    (after State.reset).status = .halted 0 ∧ (after State.reset).log = [.diag (.fallThrough 0)] := by decide

theorem test_unknown_opcode : regs (at_ 0 0 [0x23] []) = (0, 0, -1, fatal0 (.unknownOpcode 35)) := by decide

theorem test_negative_pc : regs (at_ (-4) 1 [0x101, 0] []) = (1, -4, -1, .fatal ⟨.pcFault, -4⟩) := by decide

/-- R231: the codes of D39, the ten kinds in order; R256: the exit statuses. -/
theorem test_codes :
    (FaultCause.unknownOpcode 0).code = 1 ∧ (FaultCause.sleepRange 0).code = 3 ∧ FaultCause.divideOverflow.code = 6 ∧
    (FaultCause.shiftFault 64).code = 10 ∧ (RunStatus.halted 8).exitStatus = some 8 ∧
    (fatal0 .pcFault).exitStatus = some 1 ∧ RunStatus.running.exitStatus = none := by decide

/-! ## Immediate and ALU (2.2) -/

theorem test_loadI : regs (at_ 0 7 [0x8000000000000001] []) = (0xFF80000000000000, 1, -1, .running) := by decide

theorem test_addI_wraps :
    regs (at_ 0 0x7FFFFFFFFFFFFFFF [0x0000000000000102] []) = (0x8000000000000000, 1, -1, .running) := by decide

theorem test_subI_wraps :
    regs (at_ 0 0x8000000000000000 [0x0000000000000103] []) = (0x7FFFFFFFFFFFFFFF, 1, -1, .running) := by decide

theorem test_mulI : regs (at_ 0 7 [0xFFFFFFFFFFFFFD04] []) = (word (-21), 1, -1, .running) := by decide

theorem test_mulI_low_bits : regs (at_ 0 0x4000000000000000 [0x0000000000000404] []) = (0, 1, -1, .running) := by decide

theorem test_divI_truncates : regs (at_ 0 (word (-7)) [0x0000000000000205] []) = (word (-3), 1, -1, .running) := by decide

theorem test_divI_overflow :
    regs (at_ 0 0x8000000000000000 [0xFFFFFFFFFFFFFF05] []) = (0x8000000000000000, 0, -1, fatal0 .divideOverflow) := by
  decide

theorem test_modI_sign : regs (at_ 0 (word (-7)) [0xFFFFFFFFFFFFFE06] []) = (word (-1), 1, -1, .running) := by decide

theorem test_modI_zero : regs (at_ 0 7 [0x0000000000000006] []) = (7, 0, -1, fatal0 .divideByZero) := by decide

theorem test_shiftI_right : regs (at_ 0 (word (-8)) [0xFFFFFFFFFFFFC407] []) = (0xF, 1, -1, .running) := by decide

theorem test_shiftI_oversize : regs (at_ 0 1 [0xFFFFFFFFFFFFC007] []) = (1, 0, -1, fatal0 (.shiftFault (-64))) := by decide

theorem test_andI : regs (at_ 0 0xFF [0xFFFFFFFFFFFFFE08] []) = (0xFE, 1, -1, .running) := by decide

/-! ## Jumps (2.3), at pc = 2 -/

theorem test_jnz :
    (after (at_ 2 0 [0, 0, 0x0000000000000509] [])).pc = 3 ∧
    (after (at_ 2 (word (-1)) [0, 0, 0x0000000000000509] [])).pc = 7 := by decide

theorem test_jneg :
    (after (at_ 2 0 [0, 0, 0x000000000000050A] [])).pc = 3 ∧
    (after (at_ 2 (word (-1)) [0, 0, 0x000000000000050A] [])).pc = 7 := by decide

theorem test_jpos :
    (after (at_ 2 0 [0, 0, 0x000000000000050B] [])).pc = 7 ∧
    (after (at_ 2 (word (-1)) [0, 0, 0x000000000000050B] [])).pc = 3 := by decide

theorem test_jumpR : regs (at_ 2 1 [0, 0, 0xFFFFFFFFFFFFFE0C] []) = (1, 0, -1, .running) := by decide

/-! ## Program-relative (2.4): P = [the word, 10, −3, 0], acc = 7 -/

/-- The start state of 2.4. -/
def prog4 (w : Word) : State := at_ 0 7 [w, 10, word (-3), 0] []

theorem test_loadR : regs (prog4 0x000000000000010D) = (10, 1, -1, .running) := by decide

theorem test_loadR_out : regs (prog4 0x000000000000040D) = (7, 0, -1, fatal0 (.addressFault 4)) := by decide

theorem test_addR : regs (prog4 0x000000000000010E) = (17, 1, -1, .running) := by decide

theorem test_subR : regs (prog4 0x000000000000020F) = (10, 1, -1, .running) := by decide

theorem test_mulR : regs (prog4 0x0000000000000210) = (word (-21), 1, -1, .running) := by decide

theorem test_divR : regs (prog4 0x0000000000000111) = (0, 1, -1, .running) := by decide

theorem test_divR_zero : regs (prog4 0x0000000000000311) = (7, 0, -1, fatal0 .divideByZero) := by decide

theorem test_storeR :
    (after (prog4 0x0000000000000312)).progWord? 3 = some 7 ∧
    (after (prog4 0x0000000000000312)).progWord? 2 = some (word (-3)) := by decide

theorem test_storeR_itself :
    (after (prog4 0x0000000000000012)).progWord? 0 = some 7 ∧ (after (prog4 0x0000000000000012)).pc = 1 := by decide

theorem test_incrR :
    (after (prog4 0x0000000000038013)).progWord? 3 = some (word (-128)) ∧
    (after (prog4 0x0000000000038013)).acc = word (-128) := by decide

theorem test_incrR_itself :
    (after (prog4 0x0000000000000113)).progWord? 0 = some 0x114 ∧ (after (prog4 0x0000000000000113)).acc = 276 := by decide

/-! ## Call and stack (2.5) -/

theorem test_call :
    regs (at_ 3 0 [0, 0, 0, 0x0000000000000514] []) = (0, 8, 0, .running) ∧
    (after (at_ 3 0 [0, 0, 0, 0x0000000000000514] [])).cell? 0 = some 4 := by decide

theorem test_ret : regs (at_ 0 5 [0x0000000000000215] [1, 0, 0]) = (5, 1, -1, .running) := by decide

theorem test_ret_underflow :
    regs (at_ 0 5 [0x0000000000000115] [9]) = (5, 0, 0, fatal0 (.stackFault .underflow (-1))) := by decide

theorem test_push :
    regs (at_ 0 7 [0x0000000000000216] [5]) = (7, 1, 3, .running) ∧
    (after (at_ 0 7 [0x0000000000000216] [5])).stack = [(0, 5), (1, 0), (2, 0), (3, 7)] := by decide

theorem test_push_overflow :
    regs (at_ 0 1 [0x0000000000010016] []) = (1, 0, -1, fatal0 (.stackFault .overflow 256)) := by decide

theorem test_pop : regs (at_ 0 1 [0x0000000000000217] [5, 0, 0, 7]) = (7, 1, 0, .running) := by decide

theorem test_pop_negative_count :
    regs (at_ 0 1 [0xFFFFFFFFFFFFFF17] [7]) = (1, 0, 0, fatal0 (.stackFault .negcount (-1))) := by decide

/-! ## Stack-relative (2.6): S = [5, −3, 41], acc = 100 -/

/-- The start state of 2.6. -/
def stack6 (w : Word) : State := at_ 0 100 [w] [5, word (-3), 41]

theorem test_loadS : regs (stack6 0x0000000000000218) = (5, 1, 2, .running) := by decide

theorem test_loadS_window : regs (stack6 0xFFFFFFFFFFFFFF18) = (100, 0, 2, fatal0 (.stackFault .window 3)) := by decide

theorem test_storeS : (after (stack6 0x0000000000000119)).stack = [(0, 5), (1, 100), (2, 41)] := by decide

theorem test_addS : regs (stack6 0x000000000000001A) = (141, 1, 2, .running) := by decide

theorem test_subS : regs (stack6 0x000000000000001B) = (59, 1, 2, .running) := by decide

theorem test_mulS : regs (stack6 0x000000000000011C) = (word (-300), 1, 2, .running) := by decide

theorem test_divS : regs (stack6 0x000000000000011D) = (word (-33), 1, 2, .running) := by decide

theorem test_incrS :
    (after (stack6 0x000000000001801E)).cell? 1 = some (word (-131)) ∧ (after (stack6 0x000000000001801E)).acc = 100 := by
  decide

theorem test_idivS :
    (after (stack6 0x000000000000021F)).cell? 0 = some 0 ∧ (after (stack6 0x000000000000021F)).acc = 5 := by decide

/-- By hand from R187: −7 in the cell, 2 in the accumulator. -/
theorem test_idivS_signs :
    (after (at_ 0 2 [0x000000000000001F] [word (-7)])).cell? 0 = some (word (-3)) ∧
    (after (at_ 0 2 [0x000000000000001F] [word (-7)])).acc = word (-1) := by decide

/-- W3. -/
theorem test_storeSB :
    (after (at_ 0 0x41 [0x0000000000010020] [0, 3])).stack = [(0, 0x0000000041000000), (1, 3)] := by decide

theorem test_storeSB_slot_below :
    (after (at_ 0 0xAB [0x0000000000000120] [3, 0x1122334455667788])).cell? 1 = some 0x11223344AB667788 := by decide

theorem test_unwritten_cell :
    regs { at_ 0 100 [0x0000000000000018] [] with sp := 0 } = (100, 0, 0, fatal0 (.stackFault .unwritten 0)) := by decide

/-! ## Syscalls (2.7) -/

theorem test_exit :
    regs (at_ 0 8 [0x0000000000080121] []) = (8, 0, -1, .halted 8) ∧
    (after (at_ 0 8 [0x0000000000080121] [])).log = [.diag (.exit 8 8)] := by decide

theorem test_exit_by_sysS : regs (at_ 0 5 [0xFFFFFFFFFFFF0122] []) = (5, 0, -1, .halted (-1)) := by decide

theorem test_sleep :
    regs (at_ 0 5 [0x0000000003E80221] []) = (5, 1, -1, .running) ∧
    (after (at_ 0 5 [0x0000000003E80221] [])).log = [.sleep 1000] := by decide

theorem test_sleep_too_long : regs (at_ 0 5 [0x0000000003E90221] []) = (5, 0, -1, fatal0 (.sleepRange 1001)) := by decide

theorem test_sleep_by_sysS : (after (at_ 0 5 [0x0000000000000222] [])).log = [.sleep 0] := by decide

theorem test_sys_unknown : regs (at_ 0 5 [0x0000000000000021] []) = (5, 0, -1, fatal0 (.unknownSyscall 0)) := by decide

theorem test_sysS_unknown : regs (at_ 0 5 [0x000000000000FF22] []) = (5, 0, -1, fatal0 (.unknownSyscall 255)) := by decide

/-- The bytes of a Write (L = 9), with what the length prefix is. -/
theorem test_write_bytes :
    (at_ 0 5 [0, 0x4847464544434209, 0x4A] []).readByteOf .program 8 = .ok 9 ∧
    (at_ 0 5 [0, 0x4847464544434209, 0x4A] []).readBytesOf .program 9 9 =
      .ok [0x42, 0x43, 0x44, 0x45, 0x46, 0x47, 0x48, 0x4A, 0x00] := by decide

theorem test_write_out :
    regs (at_ 0 5 [0x0000000000010321, 0x4847464544434208] []) = (5, 0, -1, fatal0 (.addressFault 2)) ∧
    (after (at_ 0 5 [0x0000000000010321, 0x4847464544434208] [])).log =
      [.diag (.fatal ⟨.addressFault 2, 0⟩)] := by decide

theorem test_write_empty : regs (at_ 0 5 [0x0000000000010321, 0] []) = (0, 1, -1, .running) := by decide

theorem test_write_stack_bytes :
    (at_ 0 5 [0] [0, 0x694802, 2]).readByteOf .stack 8 = .ok 2 ∧
    (at_ 0 5 [0] [0, 0x694802, 2]).readBytesOf .stack 9 2 = .ok [0x48, 0x69] := by decide

theorem test_write_stack_out :
    regs (at_ 0 5 [0x0000000000000322] [0, 0x4847464544434209]) = (5, 0, 1, fatal0 (.stackFault .window 2)) := by decide

/-- The end of a Write when the host takes both bytes. -/
theorem test_write_whole :
    (nextOf State.reset (finishWrite [0x48, 0x69] 2 (at_ 0 5 [0] []))).acc = 2 ∧
    (nextOf State.reset (finishWrite [0x48, 0x69] 2 (at_ 0 5 [0] []))).log = [.write [0x48, 0x69] 2] ∧
    (nextOf State.reset (finishWrite [0x48, 0x69] 2 (at_ 0 5 [0] []))).pc = 1 := by decide

/-- The end of a Write when the host takes one byte of two. -/
theorem test_write_short :
    (nextOf State.reset (finishWrite [0x48, 0x69] 1 (at_ 0 5 [0] []))).acc = word (-1) ∧
    (nextOf State.reset (finishWrite [0x48, 0x69] 1 (at_ 0 5 [0] []))).pc = 0 ∧
    (nextOf State.reset (finishWrite [0x48, 0x69] 1 (at_ 0 5 [0] []))).status = fatal0 (.writeIO 2 1) := by decide

/-- The OPEN alternatives of ShiftI 64 and of −2^63 / −1 (2.2). -/
theorem test_open_alternatives :
    aluShift .zero 1 64 = .ok 0 ∧ aluShift .mask6 1 (-64) = .ok 1 ∧
    aluMod .wrap 0x8000000000000000 (word (-1)) = .ok 0 := by decide

/-! ## Witnesses: the hypotheses of each statement that has some, met together, at the ends of their ranges -/

/-- P with its first word 0, its last word given. -/
def prog2 (w : Word) : State := at_ 0 7 [0, w] []

/-- S with one written cell. -/
def cell1 (v : Word) : State := at_ 0 7 [0] [v]

/-- The most negative word. -/
def mostNegative : Word := 0x8000000000000000

/-- A full stack. -/
def full : State := at_ 0 7 [0] (List.replicate 256 1)

/-- The live window holds a cell never written. -/
def unwritten : State := { at_ 0 7 [0] [0] with sp := 1 }

theorem witness_EncodeWordRoundTrip :
    ((-2 ^ 55 ≤ (-2 ^ 55 : Int) ∧ (-2 ^ 55 : Int) < 2 ^ 55) ∧ -2 ^ 55 ≤ (2 ^ 55 - 1 : Int) ∧ (2 ^ 55 - 1 : Int) < 2 ^ 55) ∧
    ((-2 ^ 55 - 1 : Int) < -2 ^ 55 ∨ 2 ^ 55 ≤ (-2 ^ 55 - 1 : Int)) ∧ ((2 ^ 55 : Int) < -2 ^ 55 ∨ 2 ^ 55 ≤ (2 ^ 55 : Int)) := by
  decide

theorem witness_DecodeOfEncodeIsTheInstruction :
    WellFormed (.loadI 0x80000000000000) = true ∧ WellFormed (.sys 255 (-1)) = true := by decide

theorem witness_EncodeOfDecodeIsTheWord : decode 0xFFFFFFFFFFFF0422 = .ok (.sysS 4 (-1)) := by decide

theorem witness_LoaderRefusesBadImages :
    [(0x01 : Byte), 0x47].take 8 ≠ magic ∧ [(1 : Byte), 2, 3, 4].length % 8 ≠ 0 ∧
    (8 ≤ 8 ∧ 8 < 8 + 8 * [(1 : Word)].length) ∧ 8 ≤ 15 ∧ 15 < 8 + 8 * [(1 : Word)].length := by decide

theorem witness_BootRefusesUnopenedAndCutImages : 0 < 8 ∧ 7 < 8 := by decide

theorem witness_StepRunsTheDecodedInstruction :
    (at_ 1 0 [0, 0x0000000000000501] []).status = .running ∧
    (at_ 1 0 [0, 0x0000000000000501] []).progWord? (at_ 1 0 [0, 0x0000000000000501] []).pc = some 0x0000000000000501 ∧
    decode 0x0000000000000501 = .ok (.loadI 5) := by decide

theorem witness_StepPastTheEndHaltsWithZero :
    (at_ 1 0 [0] []).status = .running ∧ ((at_ 1 0 [0] []).progLen : Int) ≤ (at_ 1 0 [0] []).pc := by decide

theorem witness_StepAtNegativePcIsFatal : (at_ (-1) 0 [0] []).status = .running ∧ (at_ (-1) 0 [0] []).pc < 0 := by decide

theorem witness_StepOnUnknownOpcodeIsFatal :
    (at_ 0 0 [0x23] []).status = .running ∧ (at_ 0 0 [0x23] []).progWord? (at_ 0 0 [0x23] []).pc = some 0x23 ∧
    ∀ m : Mnemonic, opcodeOf m ≠ (0x23 : Word).extractLsb' 0 8 := by
  refine ⟨by decide, by decide, fun m => ?_⟩
  cases m <;> decide

theorem witness_StepsExactlyWhileRunning :
    State.reset.status = .running ∧ (after State.reset).status ≠ .running := by decide

theorem witness_DivideAndRemainderImmediate :
    (-1 : BitVec 56).toInt ≠ 0 ∧ ¬DivisionOverflows (at_ 0 7 [0] []).acc.toInt (-1 : BitVec 56).toInt := by
  unfold DivisionOverflows
  decide

theorem witness_ShiftImmediateByCount :
    ((63 : BitVec 56).toInt.natAbs < 64 ∧ 0 ≤ (63 : BitVec 56).toInt) ∧
    ((-63 : BitVec 56).toInt.natAbs < 64 ∧ (-63 : BitVec 56).toInt < 0) ∧
    64 ≤ (64 : BitVec 56).toInt.natAbs ∧ 64 ≤ (-64 : BitVec 56).toInt.natAbs := by decide

theorem witness_DivisionFaults :
    (0 : BitVec 56).toInt = 0 ∧ DivisionOverflows mostNegative.toInt (-1 : BitVec 56).toInt ∧
    (prog2 0).progWord? (progAddr (prog2 0) (1 : BitVec 56).toInt) = some 0 ∧ (0 : Word).toInt = 0 ∧
    (prog2 (word (-1))).progWord? (progAddr (prog2 (word (-1))) (1 : BitVec 56).toInt) = some (word (-1)) ∧
    DivisionOverflows mostNegative.toInt (word (-1)).toInt ∧
    (cell1 0).liveCell? (stackIndex (cell1 0) (0 : BitVec 56).toInt) = some 0 ∧
    (cell1 (word (-1))).liveCell? (stackIndex (cell1 (word (-1))) (0 : BitVec 56).toInt) = some (word (-1)) ∧
    (cell1 mostNegative).liveCell? (stackIndex (cell1 mostNegative) (0 : BitVec 56).toInt) = some mostNegative := by
  unfold DivisionOverflows
  decide

theorem witness_OpenParameterAlternatives :
    64 ≤ (64 : Int).natAbs ∧ 64 ≤ (-64 : Int).natAbs ∧ DivisionOverflows mostNegative.toInt (word (-1)).toInt ∧
    (cell1 5).liveCell? (stackIndex (cell1 5) (0 : BitVec 48).toInt) = some 5 := by
  unfold DivisionOverflows
  decide

theorem witness_ProgramRelativeLoadAndArithmetic :
    (prog2 5).progWord? (progAddr (prog2 5) (1 : BitVec 56).toInt) = some 5 ∧
    (prog2 5).progWord? (progAddr (prog2 5) (0 : BitVec 56).toInt) = some 0 := by decide

theorem witness_DivisionByAStoredWord :
    (5 : Word).toInt ≠ 0 ∧ ¬DivisionOverflows (prog2 5).acc.toInt (5 : Word).toInt ∧
    (prog2 5).progWord? (progAddr (prog2 5) (1 : BitVec 56).toInt) = some 5 ∧
    (cell1 5).liveCell? (stackIndex (cell1 5) (0 : BitVec 56).toInt) = some 5 := by
  unfold DivisionOverflows
  decide

/-- Addresses 0 and N − 1 inside, −1 and N outside. -/
theorem witness_StoreRSetsOneWord :
    (0 ≤ progAddr (prog2 5) (0 : BitVec 56).toInt ∧ progAddr (prog2 5) (0 : BitVec 56).toInt < (prog2 5).progLen) ∧
    (0 ≤ progAddr (prog2 5) (1 : BitVec 56).toInt ∧ progAddr (prog2 5) (1 : BitVec 56).toInt < (prog2 5).progLen) ∧
    progAddr (prog2 5) (-1 : BitVec 56).toInt < 0 ∧
    ((prog2 5).progLen : Int) ≤ progAddr (prog2 5) (2 : BitVec 56).toInt := by decide

theorem witness_IncrRAddsInPlace : (prog2 5).progWord? (progAddr (prog2 5) (1 : BitVec 48).toInt) = some 5 := by decide

theorem witness_ProgramAddressOutOfRangeIsFatal :
    progAddr (prog2 5) (-1 : BitVec 56).toInt < 0 ∧ ((prog2 5).progLen : Int) ≤ progAddr (prog2 5) (2 : BitVec 56).toInt ∧
    progAddr (prog2 5) (-1 : BitVec 48).toInt < 0 ∧
    ((prog2 5).progLen : Int) ≤ progAddr (prog2 5) (2 : BitVec 48).toInt := by decide

/-- StoreR 1 with the word of LoadI 42 in the accumulator (P4). -/
theorem witness_StoredWordRunsInTheNextStep :
    (at_ 0 0x2A01 [0x0000000000000112, 0] []).status = .running ∧
    (at_ 0 0x2A01 [0x0000000000000112, 0] []).progWord? 0 = some (encode (.storeR 1)) ∧
    (at_ 0 0x2A01 [0x0000000000000112, 0] []).pc + 1 < (at_ 0 0x2A01 [0x0000000000000112, 0] []).progLen ∧
    decode (at_ 0 0x2A01 [0x0000000000000112, 0] []).acc = .ok (.loadI 42) := by decide

theorem at_sp (pc : Int) (acc : Word) (program cells : List Word) :
    (at_ pc acc program cells).sp = (cells.length : Int) - 1 := rfl

theorem full_sp : full.sp = 255 := by
  rw [full, at_sp, List.length_replicate]
  rfl

/-- The empty stack, 254 and 255 as the top cell. -/
theorem witness_CallPushesTheReturnIndex :
    (-1 ≤ (at_ 0 7 [0] []).sp ∧ (at_ 0 7 [0] []).sp + 1 ≤ 255) ∧
    (-1 ≤ (full.setSp 254).sp ∧ (full.setSp 254).sp + 1 ≤ 255) ∧ -1 ≤ full.sp ∧ 255 < full.sp + 1 := by
  rw [full_sp]
  exact ⟨by decide, ⟨by show (-1 : Int) ≤ 254; decide, by show (254 : Int) + 1 ≤ 255; decide⟩, by decide, by decide⟩

theorem witness_RetAndPopTakeCells :
    0 ≤ (0 : BitVec 56).toInt ∧ (cell1 9).cell? ((cell1 9).sp - (0 : BitVec 56).toInt) = some 9 ∧
    (0 : BitVec 56).toInt ≤ (cell1 9).sp ∧ (cell1 9).cell? (cell1 9).sp = some 9 := by decide

/-- No zero cell, and as many as an empty stack takes. -/
theorem witness_PushReservesZerosUnderTheAccumulator :
    -1 ≤ (at_ 0 7 [0] []).sp ∧ (0 ≤ (0 : BitVec 56).toInt ∧ (at_ 0 7 [0] []).sp + (0 : BitVec 56).toInt + 1 ≤ 255) ∧
    0 ≤ (255 : BitVec 56).toInt ∧ (at_ 0 7 [0] []).sp + (255 : BitVec 56).toInt + 1 ≤ 255 := by decide

theorem witness_CountAndDepthFaults :
    (-1 : BitVec 56).toInt < 0 ∧
    (0 ≤ (256 : BitVec 56).toInt ∧ 255 < (at_ 0 7 [0] []).sp + (256 : BitVec 56).toInt + 1) ∧
    (0 ≤ (1 : BitVec 56).toInt ∧ (cell1 9).sp - (1 : BitVec 56).toInt < 0) ∧
    (0 ≤ (0 : BitVec 56).toInt ∧ 0 ≤ unwritten.sp - (0 : BitVec 56).toInt ∧
      unwritten.cell? (unwritten.sp - (0 : BitVec 56).toInt) = none) ∧ unwritten.cell? unwritten.sp = none := by decide

/-- The state after a Push 2 from one cell (2.5). -/
def pushed : State := nextOf State.reset (exec (.push 2) (cell1 5))

theorem witness_PushThenPopRestores :
    -1 ≤ (cell1 5).sp ∧ exec (.push 2) (cell1 5) = .next pushed ∧ pushed.status = (cell1 5).status ∧
    (cell1 5).status = .running :=
  ⟨by decide, answer_eq (by decide), by decide, by decide⟩

/-- The state after a Call 5 at 3 (2.5). -/
def called : State := nextOf State.reset (exec (.call 5) (at_ 3 7 [0] []))

theorem witness_CallThenRetReturns :
    -1 ≤ (at_ 3 7 [0] []).sp ∧ -2 ^ 63 ≤ (at_ 3 7 [0] []).pc + 1 ∧ (at_ 3 7 [0] []).pc + 1 < 2 ^ 63 ∧
    (at_ 3 7 [0] []).status = .running ∧ exec (.call 5) (at_ 3 7 [0] []) = .next called ∧ called.status = .running ∧
    (called.setAcc 1).sp = called.sp ∧ (called.setAcc 1).cell? (called.setAcc 1).sp = called.cell? called.sp :=
  ⟨by decide, by decide, by decide, by decide, answer_eq (by decide), by decide, by decide, by decide⟩

/-- The top and the lowest cell. -/
theorem witness_StackRelativeLoadAndArithmetic :
    (stack6 0).liveCell? (stackIndex (stack6 0) (0 : BitVec 56).toInt) = some 41 ∧
    (stack6 0).liveCell? (stackIndex (stack6 0) (2 : BitVec 56).toInt) = some 5 := by decide

theorem witness_StoreSSetsOneCell :
    (0 ≤ stackIndex (stack6 0) (0 : BitVec 56).toInt ∧ stackIndex (stack6 0) (0 : BitVec 56).toInt ≤ (stack6 0).sp) ∧
    0 ≤ stackIndex (stack6 0) (2 : BitVec 56).toInt ∧ stackIndex (stack6 0) (2 : BitVec 56).toInt ≤ (stack6 0).sp := by
  decide

theorem witness_IncrSAddsInPlace : (stack6 0).liveCell? (stackIndex (stack6 0) (2 : BitVec 48).toInt) = some 5 := by decide

theorem witness_IdivSDividesInPlace :
    (stack6 0).liveCell? (stackIndex (stack6 0) (2 : BitVec 56).toInt) = some 5 ∧ (stack6 0).acc.toInt ≠ 0 ∧
    ¬DivisionOverflows (5 : Word).toInt (stack6 0).acc.toInt := by
  unfold DivisionOverflows
  decide

/-- A byte offset of −1, and of 0 and 3 with base 1 (W3). -/
theorem witness_StoreSBReplacesOneByte :
    ((at_ 0 0x41 [0] [0, word (-1)]).liveCell? (stackIndex (at_ 0 0x41 [0] [0, word (-1)]) (0 : BitVec 8).toNat) =
        some (word (-1)) ∧ (word (-1)).toInt < 0) ∧
    ((at_ 0 0x41 [0] [0, 0]).liveCell? (stackIndex (at_ 0 0x41 [0] [0, 0]) (0 : BitVec 8).toNat) = some 0 ∧
      0 ≤ (0 : Word).toInt ∧
      (at_ 0 0x41 [0] [0, 0]).liveCell? (byteTarget (at_ 0 0x41 [0] [0, 0]) 1 (0 : Word).toInt) = some 0) ∧
    (at_ 0 0x41 [0] [0, 3]).liveCell? (stackIndex (at_ 0 0x41 [0] [0, 3]) (0 : BitVec 8).toNat) = some 3 ∧
    0 ≤ (3 : Word).toInt ∧
    (at_ 0 0x41 [0] [0, 3]).liveCell? (byteTarget (at_ 0 0x41 [0] [0, 3]) 1 (3 : Word).toInt) = some 0 := by decide

/-- One below the window and one above it; both cells of StoreSB. -/
theorem witness_AccessOutsideTheWindowIsFatal :
    stackIndex (stack6 0) (3 : BitVec 56).toInt < 0 ∧ (stack6 0).sp < stackIndex (stack6 0) (-1 : BitVec 56).toInt ∧
    stackIndex (stack6 0) (3 : BitVec 48).toInt < 0 ∧ (stack6 0).sp < stackIndex (stack6 0) (-1 : BitVec 48).toInt ∧
    stackIndex (stack6 0) (3 : BitVec 8).toNat < 0 ∧
    (at_ 0 7 [0] [0, 3]).liveCell? (stackIndex (at_ 0 7 [0] [0, 3]) (0 : BitVec 8).toNat) = some 3 ∧
    0 ≤ (3 : Word).toInt ∧ byteTarget (at_ 0 7 [0] [0, 3]) 2 (3 : Word).toInt < 0 ∧
    (at_ 0 7 [0] [0, 3]).sp < byteTarget (at_ 0 7 [0] [0, 3]) (-1) (3 : Word).toInt := by decide

/-- The unwritten cell at the top; for StoreSB also as its target, above a written byte offset. -/
theorem witness_UnwrittenCellReadIsFatal :
    (0 ≤ stackIndex unwritten (0 : BitVec 56).toInt ∧ stackIndex unwritten (0 : BitVec 56).toInt ≤ unwritten.sp ∧
      unwritten.cell? (stackIndex unwritten (0 : BitVec 56).toInt) = none) ∧
    (0 ≤ stackIndex unwritten (0 : BitVec 48).toInt ∧ stackIndex unwritten (0 : BitVec 48).toInt ≤ unwritten.sp ∧
      unwritten.cell? (stackIndex unwritten (0 : BitVec 48).toInt) = none) ∧
    (0 ≤ stackIndex unwritten (0 : BitVec 8).toNat ∧ stackIndex unwritten (0 : BitVec 8).toNat ≤ unwritten.sp ∧
      unwritten.cell? (stackIndex unwritten (0 : BitVec 8).toNat) = none) ∧
    unwritten.liveCell? (stackIndex unwritten (1 : BitVec 8).toNat) = some 0 ∧ 0 ≤ (0 : Word).toInt ∧
    0 ≤ byteTarget unwritten 0 (0 : Word).toInt ∧ byteTarget unwritten 0 (0 : Word).toInt ≤ unwritten.sp ∧
    unwritten.cell? (byteTarget unwritten 0 (0 : Word).toInt) = none := by decide

theorem witness_SleepInRangeIsRecorded :
    (0 ≤ (0 : BitVec 48).toInt ∧ (0 : BitVec 48).toInt ≤ 1000) ∧
    0 ≤ (1000 : BitVec 48).toInt ∧ (1000 : BitVec 48).toInt ≤ 1000 := by decide

theorem witness_SleepOutOfRangeIsFatal : (-1 : BitVec 48).toInt < 0 ∧ 1000 < (1001 : BitVec 48).toInt := by decide

theorem witness_UnknownSyscallIsFatal :
    ((0 : BitVec 8) ≠ 1 ∧ (0 : BitVec 8) ≠ 2 ∧ (0 : BitVec 8) ≠ 3) ∧
    ((4 : BitVec 8) ≠ 1 ∧ (4 : BitVec 8) ≠ 2 ∧ (4 : BitVec 8) ≠ 3) ∧
    (255 : BitVec 8) ≠ 1 ∧ (255 : BitVec 8) ≠ 2 ∧ (255 : BitVec 8) ≠ 3 := by decide

theorem witness_EmptyStringMakesNoRequest :
    (0x4200 : Word).toNat % 2 ^ 8 = 0 ∧
    (prog2 0x4200).progWord? (progAddr (prog2 0x4200) (1 : BitVec 48).toInt) = some 0x4200 ∧
    (cell1 0x4200).liveCell? (stackIndex (cell1 0x4200) (0 : BitVec 48).toInt) = some 0x4200 := by decide

/-- Seven bytes end in the last word of P; an eighth does not. -/
theorem witness_WriteHandsOverProgramBytes :
    (prog2 0x4847464544434207).progWord? (progAddr (prog2 0x4847464544434207) (1 : BitVec 48).toInt) =
      some 0x4847464544434207 ∧
    (0x4847464544434207 : Word).toNat % 2 ^ 8 ≠ 0 ∧
    progAddr (prog2 0x4847464544434207) (1 : BitVec 48).toInt + ((0x4847464544434207 : Word).toNat % 2 ^ 8 : Nat) / 8 <
      (prog2 0x4847464544434207).progLen := by decide

theorem witness_WriteHandsOverStackBytes :
    (at_ 0 7 [0] [0, 0x4847464544434209, 0x4A]).liveCell?
        (stackIndex (at_ 0 7 [0] [0, 0x4847464544434209, 0x4A]) (1 : BitVec 48).toInt) = some 0x4847464544434209 ∧
    (0x4847464544434209 : Word).toNat % 2 ^ 8 ≠ 0 ∧
    ∀ k : Nat, k ≤ ((0x4847464544434209 : Word).toNat % 2 ^ 8) / 8 →
      ((at_ 0 7 [0] [0, 0x4847464544434209, 0x4A]).liveCell?
        (stackIndex (at_ 0 7 [0] [0, 0x4847464544434209, 0x4A]) (1 : BitVec 48).toInt + k)).isSome := by
  refine ⟨by decide, by decide, fun k hk => ?_⟩
  have hk' : k ≤ 1 := hk
  interval_cases k <;> decide

/-- The string's first word out at both ends; its second out of P, out of the window, and unwritten. -/
theorem witness_WriteOutOfBoundsIsFatal :
    progAddr (prog2 8) (-1 : BitVec 48).toInt < 0 ∧ ((prog2 8).progLen : Int) ≤ progAddr (prog2 8) (2 : BitVec 48).toInt ∧
    ((prog2 8).progWord? (progAddr (prog2 8) (1 : BitVec 48).toInt) = some 8 ∧
      ((prog2 8).progLen : Int) ≤ progAddr (prog2 8) (1 : BitVec 48).toInt + ((8 : Word).toNat % 2 ^ 8 : Nat) / 8) ∧
    ((cell1 8).liveCell? (stackIndex (cell1 8) (0 : BitVec 48).toInt) = some 8 ∧ 1 ≤ ((8 : Word).toNat % 2 ^ 8) / 8 ∧
      (∀ k < 1, ((cell1 8).liveCell? (stackIndex (cell1 8) (0 : BitVec 48).toInt + (k : Nat))).isSome) ∧
      (cell1 8).sp < stackIndex (cell1 8) (0 : BitVec 48).toInt + 1) ∧
    ({ cell1 8 with sp := 1 }.liveCell? (stackIndex { cell1 8 with sp := 1 } (1 : BitVec 48).toInt) = some 8 ∧
      stackIndex { cell1 8 with sp := 1 } (1 : BitVec 48).toInt + 1 ≤ { cell1 8 with sp := 1 }.sp ∧
      { cell1 8 with sp := 1 }.cell? (stackIndex { cell1 8 with sp := 1 } (1 : BitVec 48).toInt + 1) = none) := by decide

/-- Push 2 from one cell, a state that meets the invariants. -/
def pushing : State := at_ 0 7 [0x0000000000000216] [5]

theorem pushing_steps : step pushing = .next (after pushing) := answer_eq (by decide)

theorem witness_EveryStepKeepsTheInvariant : pushing.Inv ∧ step pushing = .next (after pushing) :=
  ⟨by decide, pushing_steps⟩

/-- Exit 8 ends the run. -/
def exiting : State := at_ 0 8 [0x0000000000080121] []

theorem witness_OneDiagnosticRecordAtTheEnd :
    exiting.recordsAgree ∧ step exiting = .next (after exiting) ∧ (after exiting).status = .halted 8 := by
  refine ⟨?_, answer_eq (by decide), by decide⟩
  show ∀ e ∈ exiting.log, e.isDiag = false
  decide

/-- The longest jump forward. -/
theorem witness_PcStaysInSixtyFourBits :
    (at_ 0 7 [0x7FFFFFFFFFFFFF0C] []).progLen ≤ 2 ^ 62 ∧ (at_ 0 7 [0x7FFFFFFFFFFFFF0C] []).pcFits ∧
    step (at_ 0 7 [0x7FFFFFFFFFFFFF0C] []) = .next (after (at_ 0 7 [0x7FFFFFFFFFFFFF0C] [])) :=
  ⟨by decide, by decide, answer_eq (by decide)⟩

theorem witness_ProgramLengthFixedAndLogOnlyGrows : step pushing = .next (after pushing) := pushing_steps

theorem witness_NoUnwrittenReadFromTheInvariant : pushing.Inv ∧ step pushing = .next (after pushing) :=
  ⟨by decide, pushing_steps⟩

theorem witness_FaultsArePrecise :
    step (prog4 0x0000000000000311) = .next (after (prog4 0x0000000000000311)) ∧
    (after (prog4 0x0000000000000311)).status = .fatal ⟨.divideByZero, 0⟩ :=
  ⟨answer_eq (by decide), by decide⟩

/-- The operations of W2. -/
def foldOps : List (FoldOp × BitVec 56) :=
  [(.load, 10), (.add, 5), (.mul, -3), (.div, 4), (.mod, 7), (.and, 0xFF), (.sub, 1)]

/-- The program of W2, its words as the vector gives them. -/
def foldProgram : State :=
  at_ 0 0 [0x0000000000000A01, 0x0000000000000502, 0xFFFFFFFFFFFFFD04, 0x0000000000000405, 0x0000000000000706,
    0x000000000000FF08, 0x0000000000000103] []

/-- P5: a division by zero at its second word. -/
def zeroFold : List (FoldOp × BitVec 56) := [(.load, 7), (.div, 0)]

/-- The program of P5. -/
def zeroProgram : State := at_ 0 0 [0x0000000000000701, 0x0000000000000005] []

/-- −2^63 divided by −1 (2.2). -/
def overflowProgram : State := at_ 0 mostNegative [0xFFFFFFFFFFFFFF05] []

/-- The Fatal clause: a fold that divides by zero, and one that divides −2^63 by −1. -/
theorem witness_ArithmeticProgramIsALeftFold_fatal :
    (zeroProgram.status = .running ∧ 0 ≤ zeroProgram.pc ∧ zeroProgram.pc + zeroFold.length = zeroProgram.progLen ∧
      (∀ k : Nat, k < zeroFold.length →
        zeroProgram.progWord? (zeroProgram.pc + k) = zeroFold[k]?.map fun o => encode (o.1.instr o.2)) ∧
      foldAcc zeroProgram.acc zeroFold = none) ∧
    overflowProgram.status = .running ∧ 0 ≤ overflowProgram.pc ∧
    overflowProgram.pc + [(FoldOp.div, (-1 : BitVec 56))].length = overflowProgram.progLen ∧
    (∀ k : Nat, k < [(FoldOp.div, (-1 : BitVec 56))].length →
      overflowProgram.progWord? (overflowProgram.pc + k) =
        [(FoldOp.div, (-1 : BitVec 56))][k]?.map fun o => encode (o.1.instr o.2)) ∧
    foldAcc overflowProgram.acc [(FoldOp.div, (-1 : BitVec 56))] = none := by
  refine ⟨⟨by decide, by decide, by decide, fun k hk => ?_, by decide⟩, by decide, by decide, by decide, fun k hk => ?_,
    by decide⟩
  · have hk' : k < 2 := hk
    interval_cases k <;> decide
  · have hk' : k < 1 := hk
    interval_cases k
    decide

/-- W2: the fold is 251. -/
theorem witness_ArithmeticProgramIsALeftFold :
    foldProgram.status = .running ∧ 0 ≤ foldProgram.pc ∧ foldProgram.pc + foldOps.length = foldProgram.progLen ∧
    (∀ k : Nat, k < foldOps.length →
      foldProgram.progWord? (foldProgram.pc + k) = foldOps[k]?.map fun o => encode (o.1.instr o.2)) ∧
    foldAcc foldProgram.acc foldOps = some 251 := by
  refine ⟨by decide, by decide, by decide, fun k hk => ?_, by decide⟩
  have hk' : k < 7 := hk
  interval_cases k <;> decide

theorem witness_OnlyListedInstructionsWrite :
    exec (.jumpR 5) (cell1 5) = .next (nextOf State.reset (exec (.jumpR 5) (cell1 5))) ∧
    writesAcc (.jumpR 5) = false ∧ writesSp (.jumpR 5) = false ∧ writesProg (.jumpR 5) = false ∧
    writesStack (.jumpR 5) = false ∧ ((cell1 5).cell? 0).isSome :=
  ⟨answer_eq (by decide), by decide⟩

end Sys2Proof.Tests
end

