-- ==== Sys2Proof/Proofs/WordFields.lean ====
section
/-! SUPPORT and PROOFS. A word as its operand field appended to its opcode (30_encoding.md, R61 and R62). The two fields of
an append come back from it, and a word is the append of its own two fields; so the arithmetic of both obligations is that
of `BitVec.toInt_append`. -/

namespace Sys2Proof

/-! ## The two fields of a word, and the word made of them -/

@[simp] theorem decodeOpcode_append (x : BitVec 56) (op : BitVec 8) : decodeOpcode (x ++ op) = op :=
  BitVec.extractLsb'_append_eq_right

@[simp] theorem operandField_append (x : BitVec 56) (op : BitVec 8) : operandField (x ++ op) = x :=
  BitVec.extractLsb'_append_eq_left

theorem operandField_append_decodeOpcode (w : Word) : operandField w ++ decodeOpcode w = w :=
  BitVec.extractLsb'_append_extractLsb' (w := 56) (len := 8)

theorem toInt_eq_operandField_add_decodeOpcode (w : Word) :
    w.toInt = 2 ^ 8 * (operandField w).toInt + (decodeOpcode w).toNat :=
  calc w.toInt = (operandField w ++ decodeOpcode w).toInt := by rw [operandField_append_decodeOpcode]
    _ = 2 ^ 8 * (operandField w).toInt + (decodeOpcode w).toNat := BitVec.toInt_append

/-! ## The decoded operand (R61) -/

/-- The arithmetic shift is a floor division, and the opcode is less than the divisor. -/
@[simp] theorem toInt_decodeOperand (w : Word) : (decodeOperand w).toInt = (operandField w).toInt := by
  have hword := toInt_eq_operandField_add_decodeOpcode w
  have hop := (decodeOpcode w).isLt
  rw [decodeOperand, BitVec.toInt_sshiftRight, Int.shiftRight_eq_div_pow]
  omega

theorem decodeOperand_eq_signExtend (w : Word) : decodeOperand w = (operandField w).signExtend 64 := by
  apply BitVec.eq_of_toInt_eq
  rw [toInt_decodeOperand, BitVec.toInt_signExtend_of_le (by decide)]

/-- Settles O1: a word is its operand field appended to its opcode, and its decoded operand is that field's value. -/
theorem decodeSplitsEveryWord : Obligations.DecodeSplitsEveryWord := by
  intro w
  refine ⟨BitVec.extractLsb'_toNat 0 8 w, decodeOperand_eq_signExtend w, ?_, ?_, ?_⟩
  · rw [toInt_decodeOperand, toInt_eq_operandField_add_decodeOpcode w, Int.mul_comm]
  · rw [toInt_decodeOperand]
    exact (operandField w).le_toInt
  · rw [toInt_decodeOperand]
    exact (operandField w).toInt_lt

/-! ## The encoded operand (R62) -/

theorem setWidth_word (x : Int) : (word x).setWidth 56 = BitVec.ofInt 56 x := by
  apply BitVec.eq_of_toNat_eq
  rw [word, BitVec.toNat_setWidth, BitVec.toNat_ofInt, BitVec.toNat_ofInt]
  omega

theorem shiftLeft_or_eq_append (v : Word) (op : BitVec 8) : (v <<< 8) ||| op.setWidth 64 = v.setWidth 56 ++ op := by
  apply BitVec.eq_of_getLsbD_eq
  intro k hk
  rw [BitVec.getLsbD_append]
  split_ifs with hk'
  · simp [hk, hk']
  · have hop : op.getLsbD k = false := BitVec.getLsbD_of_ge op k (by omega)
    simp [hk, hk', hop, show k - 8 < 56 by omega, show k - 8 < 64 by omega]

theorem encodeWord_of_inRange (op : BitVec 8) {x : Int} (hlo : -2 ^ 55 ≤ x) (hhi : x < 2 ^ 55) :
    encodeWord op x = some ((word x).setWidth 56 ++ op) := by
  rw [encodeWord, if_pos ⟨hlo, hhi⟩, shiftLeft_or_eq_append]

theorem encodeWord_of_outOfRange (op : BitVec 8) {x : Int} (h : x < -2 ^ 55 ∨ 2 ^ 55 ≤ x) : encodeWord op x = none :=
  if_neg (by omega)

/-- Settles O2: the encoding of an operand in range is its low 56 bits appended to the opcode, and no bit that the
truncation drops carries information. -/
theorem encodeWordRoundTrip : Obligations.EncodeWordRoundTrip := by
  intro op x
  refine ⟨fun hlo hhi => ?_, encodeWord_of_outOfRange op⟩
  refine ⟨_, encodeWord_of_inRange op hlo hhi, (shiftLeft_or_eq_append _ _).symm, rfl, decodeOpcode_append _ _, ?_⟩
  rw [toInt_decodeOperand, operandField_append, setWidth_word]
  exact BitVec.toInt_ofInt_eq_self (by decide) hlo hhi

end Sys2Proof
end

/-! PROOFS. The step on a word of unknown opcode (40_dispatch.md, R85). With the run going on and the pc naming a word of
P, both range tests of the pc let the step through and the fetch reads that word; so the step is decided by what the
decoder answers to it, and the decoder refuses exactly the words whose opcode no mnemonic owns. -/

namespace Sys2Proof

/-! ## The decoder on an opcode that no mnemonic owns (R70) -/

/-- The opcode map and its search agree on the values that belong to no mnemonic. -/
theorem mnemonicOf_eq_none_iff {op : BitVec 8} : mnemonicOf op = none ↔ ∀ m : Mnemonic, opcodeOf m ≠ op := by
  constructor
  · rintro hnone m rfl
    simp at hnone
  · intro hop
    rw [Option.eq_none_iff_forall_ne_some]
    exact fun m hm => hop m (opcodeOf_of_mnemonicOf hm)

theorem decode_of_unknownOpcode {w : Word} (hop : ∀ m : Mnemonic, opcodeOf m ≠ decodeOpcode w) :
    decode w = .error ⟨decodeOpcode w⟩ := by
  rw [decode, mnemonicOf_eq_none_iff.2 hop]

end Sys2Proof

namespace Sys2Proof.Machine

/-! ## The step with the pc naming a word of P (R80 to R83) -/

section PcInRange

variable {s : State} {w : Word} (hw : s.progWord? s.pc = some w)
include hw

theorem State.pastEnd_of_word : s.pastEnd = false := by
  obtain ⟨-, hlt, -⟩ := State.progWord?_eq_some hw
  simpa [State.pastEnd] using hlt

theorem State.beforeStart_of_word : s.beforeStart = false := by
  obtain ⟨hnonneg, -, -⟩ := State.progWord?_eq_some hw
  simpa [State.beforeStart] using hnonneg

theorem State.fetchWord_of_word : s.fetchWord = w := by
  obtain ⟨-, -, hword⟩ := State.progWord?_eq_some hw
  exact hword

/-- A word the decoder refuses faults, and runs no instruction. -/
theorem step_of_decode_error {e : UnknownOpcode} (hrun : s.status = .running) (hdec : decode w = .error e) :
    step s = raise (decodeFault e) s := by
  simp [step, hrun, State.pastEnd_of_word hw, State.beforeStart_of_word hw, State.fetchWord_of_word hw, hdec]

end PcInRange

/-- Settles O13: the decoder refuses the word by its opcode, and the step takes that refusal as its fault. -/
theorem stepOnUnknownOpcodeIsFatal : Obligations.StepOnUnknownOpcodeIsFatal := by
  intro s w hrun hw hop
  exact step_of_decode_error hw hrun (decode_of_unknownOpcode hop)

end Sys2Proof.Machine

/-! PROOFS. LoadI and AndI (41_immediate_alu.md, R100 and R108). Two facts carry both: a word with the opcode of a format I
mnemonic decodes to the instruction of its operand field, and the operand is taken as its 56 bits, sign-extended. -/

namespace Sys2Proof

/-- A word with the opcode of a mnemonic is the instruction of that mnemonic (R80, R83). -/
theorem decode_of_opcode {w : Word} {m : Mnemonic} (hop : decodeOpcode w = opcodeOf m) :
    decode w = .ok (instrOf m w) := by
  rw [decode, hop, mnemonicOf_opcodeOf]

end Sys2Proof

namespace Sys2Proof.Machine

/-- A mnemonic whose instructions take the plain operand has format I (R68). -/
theorem formatI_of_instrOf {m : Mnemonic} {mk : BitVec 56 → Instr} (h : ∀ w, instrOf m w = mk (operandField w)) :
    FormatI m mk := by
  intro w hop
  rw [decode_of_opcode hop, h, operandField]

/-! ## The immediate operand (R61, R69) -/

theorem immediate_eq_word_toInt (x : BitVec 56) : immediate x = word x.toInt := by
  rw [← immediate_toInt, word_self]

/-- The bits above the operand's own are copies of its sign bit. -/
theorem immediate_getLsbD (x : BitVec 56) {k : Nat} (hk : k < 64) :
    (immediate x).getLsbD k = if k < 56 then x.getLsbD k else x.msb := by
  rw [immediate, BitVec.getLsbD_signExtend, decide_eq_true hk, Bool.true_and]

/-! ## The instructions that write the accumulator and advance -/

theorem advance_setAcc (s : State) (v : Word) : advance (s.setAcc v) = .next { s with acc := v, pc := s.pc + 1 } := rfl

theorem exec_loadI (x : BitVec 56) (s : State) : exec (.loadI x) s = advance (s.setAcc (immediate x)) := rfl

theorem exec_andI (x : BitVec 56) (s : State) : exec (.andI x) s = advance (s.setAcc (s.acc &&& immediate x)) := rfl

/-- Settles O19: the operand's bits are those of its sign extension, and the AND is taken bit by bit. -/
theorem andImmediateIsBitwise : Obligations.AndImmediateIsBitwise := by
  refine ⟨formatI_of_instrOf fun _ => rfl, fun x s => ?_⟩
  refine ⟨_, (exec_andI x s).trans (advance_setAcc s _), rfl, fun k hk => ?_⟩
  rw [BitVec.getLsbD_and, immediate_getLsbD x hk]

/-- Settles O15: the operand loaded is its sign extension, which keeps its signed value. -/
theorem loadITakesTheOperand : Obligations.LoadITakesTheOperand := by
  refine ⟨formatI_of_instrOf fun _ => rfl, fun x s => ?_⟩
  rw [← immediate_eq_word_toInt, exec_loadI, advance_setAcc]
  exact ⟨rfl, immediate_toInt x⟩

end Sys2Proof.Machine

/-! PROOFS. The relative jumps (42_jumps.md, R120 to R123). A conditional jump only chooses the next pc, by its test of the
accumulator; and JNEG and JPOS test for complementary signs. -/

namespace Sys2Proof.Machine

theorem jumpTo_progAddr (x : BitVec 56) (s : State) :
    jumpTo (progAddr s x.toInt) s = .next { s with pc := s.pc + x.toInt } := rfl

/-- A conditional jump answers a next state either way, and changes nothing but the pc (R124). -/
theorem jumpIf_decide (p : Prop) [Decidable p] (x : BitVec 56) (s : State) :
    jumpIf (decide p) x s = .next { s with pc := if p then s.pc + x.toInt else s.pc + 1 } := by
  by_cases hp : p
  · simp only [jumpIf, hp, decide_true, if_true, jumpTo_progAddr]
  · simp only [jumpIf, hp, decide_false, Bool.false_eq_true, if_false, advance]

theorem exec_jnz (x : BitVec 56) (s : State) :
    exec (.jnz x) s = .next { s with pc := if s.acc.toInt ≠ 0 then s.pc + x.toInt else s.pc + 1 } :=
  jumpIf_decide _ x s

theorem exec_jneg (x : BitVec 56) (s : State) :
    exec (.jneg x) s = .next { s with pc := if s.acc.toInt < 0 then s.pc + x.toInt else s.pc + 1 } :=
  jumpIf_decide _ x s

theorem exec_jpos (x : BitVec 56) (s : State) :
    exec (.jpos x) s = .next { s with pc := if s.acc.toInt ≥ 0 then s.pc + x.toInt else s.pc + 1 } :=
  jumpIf_decide _ x s

theorem exec_jumpR (x : BitVec 56) (s : State) : exec (.jumpR x) s = .next { s with pc := s.pc + x.toInt } :=
  jumpTo_progAddr x s

/-- Of JNEG and JPOS with one operand, the sign of the accumulator picks the one that jumps (R122). -/
theorem exec_jneg_jpos_complementary (x : BitVec 56) (s : State) :
    (exec (.jneg x) s = .next { s with pc := s.pc + x.toInt } ∧ exec (.jpos x) s = .next { s with pc := s.pc + 1 }) ∨
    (exec (.jneg x) s = .next { s with pc := s.pc + 1 } ∧ exec (.jpos x) s = .next { s with pc := s.pc + x.toInt }) := by
  rw [exec_jneg, exec_jpos]
  rcases lt_or_ge s.acc.toInt 0 with hneg | hnonneg
  · rw [if_pos hneg, if_neg hneg.not_ge]
    exact .inl ⟨rfl, rfl⟩
  · rw [if_neg hnonneg.not_gt, if_pos hnonneg]
    exact .inr ⟨rfl, rfl⟩

/-- Settles O22: each conditional jump is the choice of the next pc by its own test of the accumulator. -/
theorem conditionalJumps : Obligations.ConditionalJumps := by
  refine ⟨formatI_of_instrOf fun _ => rfl, formatI_of_instrOf fun _ => rfl, formatI_of_instrOf fun _ => rfl, ?_⟩
  intro x s
  exact ⟨exec_jnz x s, exec_jneg x s, exec_jpos x s, exec_jneg_jpos_complementary x s⟩

/-- Settles O23: JumpR is the jump to the program-relative target, with no test. -/
theorem jumpAlways : Obligations.JumpAlways :=
  ⟨formatI_of_instrOf fun _ => rfl, exec_jumpR⟩

end Sys2Proof.Machine

/-! PROOFS. StoreR (43_program_relative.md, R145). The range check on the address alone decides how it ends: the write of one
word of P and the advance, or AddressFault. -/

namespace Sys2Proof.Machine

theorem exec_storeR (x : BitVec 56) (s : State) :
    exec (.storeR x) s = orRaise s (s.writeProg (progAddr s x.toInt) s.acc) advance := rfl

/-- An address in [0, N) passes the check (R44, R45). -/
theorem exec_storeR_of_inRange {x : BitVec 56} {s : State} (h₀ : 0 ≤ progAddr s x.toInt)
    (h₁ : progAddr s x.toInt < s.progLen) :
    exec (.storeR x) s =
      .next { s with prog := s.prog.writeWord (progAddr s x.toInt).toNat s.acc, pc := s.pc + 1 } := by
  rw [exec_storeR, State.writeProg_in s.acc h₀ h₁, orRaise_ok, advance]

/-- An address outside [0, N) faults before any write (R44, R90). -/
theorem raises_storeR_of_outOfRange {x : BitVec 56} {s : State}
    (h : progAddr s x.toInt < 0 ∨ s.progLen ≤ progAddr s x.toInt) :
    Raises (.storeR x) s (.addressFault (progAddr s x.toInt)) := by
  rw [Raises, exec_storeR, State.writeProg_out s.acc h, orRaise_error]
  rfl

/-- Settles O26: the state StoreR answers differs from the old one by the write of one word, whose frame is that of the
byte view. -/
theorem storeRSetsOneWord : Obligations.StoreRSetsOneWord := by
  refine ⟨formatI_of_instrOf fun _ => rfl, fun x s => ⟨fun h₀ h₁ => ?_, raises_storeR_of_outOfRange⟩⟩
  exact ⟨_, exec_storeR_of_inRange h₀ h₁, rfl, progBut_of_writeWord h₀ h₁ rfl rfl⟩

end Sys2Proof.Machine

/-! PROOFS. The two round trips of the operand stack (44_call_stack.md, R164 and R165). A Push or a Call after which the run
goes on has passed all its checks, so it left a known word in the cell its new stack pointer names; that cell alone decides
the Pop or the Ret that answers it. -/

namespace Sys2Proof.Machine

/-! ## What an operation that did not fault has passed -/

/-- A faulted state is not running (R230), so a checked computation that leaves the run going on passed its check. -/
theorem orRaise_running {α : Type} {s t : State} {c : Checked α} {go : α → Answer} (h : orRaise s c go = .next t)
    (hrun : t.status = .running) : ∃ v, c = .ok v ∧ go v = .next t := by
  rcases orRaise_next h with hok | ⟨cause, -, rfl⟩
  · exact hok
  · simp at hrun

theorem nonneg_of_checkCount_ok {n : Int} {v : Unit} (h : checkCount n = .ok v) : 0 ≤ n := by
  rcases checkCount_cases n with ⟨hn, -⟩ | ⟨-, herr⟩
  · exact hn
  · rw [herr] at h
    cases h

/-- Push n without a fault: the count is not negative, and the accumulator is in the cell the new sp names (R162). -/
theorem exec_push_running {x : BitVec 56} {s t : State} (hsp : -1 ≤ s.sp) (h : exec (.push x) s = .next t)
    (hrun : t.status = .running) :
    0 ≤ x.toInt ∧ t.sp = s.sp + x.toInt + 1 ∧ t.pc = s.pc + 1 ∧ t.cell? t.sp = some s.acc := by
  obtain ⟨_, hcount, hroom⟩ := orRaise_running h hrun
  obtain ⟨_, -, hpush⟩ := orRaise_running hroom hrun
  have hx : 0 ≤ x.toInt := nonneg_of_checkCount_ok hcount
  have htop : 0 ≤ s.sp + x.toInt + 1 := by omega
  cases hpush
  refine ⟨hx, rfl, ?_, State.putCell_cell?_same s.acc htop⟩
  simp

/-- Call without a fault: the return index is in the cell the new sp names (R160). -/
theorem exec_call_running {x : BitVec 56} {s t : State} (hsp : -1 ≤ s.sp) (h : exec (.call x) s = .next t)
    (hrun : t.status = .running) : t.sp = s.sp + 1 ∧ t.cell? t.sp = some (word (s.pc + 1)) := by
  obtain ⟨_, -, hcall⟩ := orRaise_running h hrun
  have htop : 0 ≤ s.sp + 1 := by omega
  cases hcall
  exact ⟨rfl, State.putCell_cell?_same _ htop⟩

/-! ## Pop and Ret on cells they can read -/

theorem exec_pop_of_top {x : BitVec 56} {s : State} {v : Word} (hx : 0 ≤ x.toInt) (hdepth : x.toInt ≤ s.sp)
    (htop : s.cell? s.sp = some v) :
    exec (.pop x) s = .next { s with acc := v, sp := s.sp - 1 - x.toInt, pc := s.pc + 1 } := by
  rw [exec, execPop, checkCount_ok hx, checkDepth_ok (by omega), State.readMarked_some htop]
  rfl

/-- A readable cell has an index of 0 or more, so the depth check passes without a premise of its own. -/
theorem exec_ret_of_cell {x : BitVec 56} {s : State} {v : Word} (hx : 0 ≤ x.toInt)
    (hcell : s.cell? (s.sp - x.toInt) = some v) :
    exec (.ret x) s = .next { s with sp := s.sp - x.toInt - 1, pc := v.toInt } := by
  rw [exec, execRet, checkCount_ok hx, checkDepth_ok (State.cell?_nonneg hcell), State.readMarked_some hcell]
  rfl

/-- Ret 0 takes the top cell as the index to resume at. -/
theorem exec_ret_zero {s : State} {v : Word} (htop : s.cell? s.sp = some v) :
    exec (.ret 0) s = .next { s with sp := s.sp - 1, pc := v.toInt } := by
  simpa using exec_ret_of_cell (x := 0) (by simp) (by simpa using htop)

/-! ## The round trips -/

/-- Settles O34: the accumulator Push left on top is the word Pop takes, and both move sp by the same count. -/
theorem pushThenPopRestores : Obligations.PushThenPopRestores := by
  intro x s t hsp hpush hstatus hrun
  have htrun : t.status = .running := hstatus.trans hrun
  obtain ⟨hx, htsp, htpc, htop⟩ := exec_push_running hsp hpush htrun
  refine ⟨_, exec_pop_of_top hx (by omega) htop, rfl, ?_, ?_, rfl, htrun⟩
  · show t.sp - 1 - x.toInt = s.sp
    omega
  · show t.pc + 1 = s.pc + 2
    omega

/-- Settles O35: the cell still holds the return index Call left in it, and an index of 64 bits comes back from a word. -/
theorem callThenRetReturns : Obligations.CallThenRetReturns := by
  intro x s t u hsp hlo hhi _ hcall htrun husp hucell
  obtain ⟨htsp, htop⟩ := exec_call_running hsp hcall htrun
  refine ⟨_, exec_ret_zero (hucell.trans htop), word_toInt_of_fits hlo hhi, ?_, rfl⟩
  show u.sp - 1 = s.sp
  omega

end Sys2Proof.Machine

/-! PROOFS. The two faults of the syscall multiplexer (46_syscall.md, R202 to R205; 60_exceptions.md, R233 and R234). Sys and
SysS share the multiplexer, and neither the range check of Sleep nor the fault of an unknown id looks at the store; so each
fault is proved once for every store, and the forms of the instruction only name the store and the id. -/

namespace Sys2Proof.Machine

theorem raises_of_exec_eq_raise {i : Instr} {s : State} {cause : FaultCause} (h : exec i s = raise cause s) :
    Raises i s cause := h

/-! ## Sleep (R205) -/

/-- The multiplexer takes the id of Sleep to the same meaning for both stores (R202). -/
@[simp] theorem syscall_sleep (space : Space) (arg : BitVec 48) (s : State) :
    syscall space Config.syscallSleep arg s = sleepCall arg s := by
  rw [syscall, if_neg (by decide), if_pos rfl]

/-- Each of the four forms of Sleep is the Sleep of the multiplexer. -/
theorem exec_sleep_forms (arg : BitVec 48) (s : State) :
    ∀ i ∈ [Instr.sysSleep arg, .sysSSleep arg, .sys Config.syscallSleep arg, .sysS Config.syscallSleep arg],
      exec i s = sleepCall arg s := by
  have hsys : syscall .program Config.syscallSleep arg s = sleepCall arg s := syscall_sleep _ arg s
  have hsysS : syscall .stack Config.syscallSleep arg s = sleepCall arg s := syscall_sleep _ arg s
  rw [List.forall_mem_cons, List.forall_mem_cons, List.forall_mem_cons, List.forall_mem_singleton]
  exact ⟨hsys, hsysS, hsys, hsysS⟩

theorem checkSleep_of_outOfRange {ms : Int} (h : ms < 0 ∨ 1000 < ms) : checkSleep ms = .error (.sleepRange ms) := by
  rcases checkSleep_cases ms with ⟨hlo, hhi, -⟩ | ⟨-, herr⟩
  · omega
  · exact herr

/-- The range check comes before any request to the host (R205). -/
theorem sleepCall_of_outOfRange {arg : BitVec 48} (h : arg.toInt < 0 ∨ 1000 < arg.toInt) (s : State) :
    sleepCall arg s = raise (.sleepRange arg.toInt) s := by
  rw [sleepCall, checkSleep_of_outOfRange h, orRaise_error, raise]

/-- A Fatal end has exit status 1, whatever its record (R256). -/
@[simp] theorem exitStatus_fatal (r : FaultRecord) : (RunStatus.fatal r).exitStatus = some 1 := rfl

/-- Settles O45: every form of Sleep is the one call, whose range check fails on such an argument. -/
theorem sleepOutOfRangeIsFatal : Obligations.SleepOutOfRangeIsFatal := by
  intro arg s hout i hi
  refine ⟨raises_of_exec_eq_raise ?_, exitStatus_fatal _⟩
  rw [exec_sleep_forms arg s i hi, sleepCall_of_outOfRange hout]

/-! ## An unknown syscall id (R203) -/

/-- An id that is none of the three fails every test of the multiplexer, which then looks at nothing else (R202). -/
theorem syscall_of_unknownId {id : BitVec 8} (hexit : id ≠ Config.syscallExit) (hsleep : id ≠ Config.syscallSleep)
    (hwrite : id ≠ Config.syscallWrite) (space : Space) (arg : BitVec 48) (s : State) :
    syscall space id arg s = raise (.unknownSyscall id) s := by
  rw [syscall, if_neg hexit, if_neg hsleep, if_neg hwrite]

/-- Settles O46: Sys and SysS are the multiplexer on their own store, which refuses such an id on either. -/
theorem unknownSyscallIsFatal : Obligations.UnknownSyscallIsFatal := by
  intro id arg s hexit hsleep hwrite
  have hraise (space : Space) : syscall space id arg s = raise (.unknownSyscall id) s :=
    syscall_of_unknownId hexit hsleep hwrite space arg s
  exact ⟨raises_of_exec_eq_raise (hraise .program), raises_of_exec_eq_raise (hraise .stack)⟩

end Sys2Proof.Machine

/-! PROOFS. The decoder and the encoder (30_encoding.md). A word decodes exactly when its opcode belongs to a mnemonic,
and then to the instruction of that mnemonic; so both round trips are those of the fields of one word (R60 to R68). -/

namespace Sys2Proof

/-! ## Decode of encode -/

/-- An id that is none of the three keeps its own constructor (R79). -/
theorem sysInstr_of_unknownId {id : BitVec 8} (h : isSyscallId id = false) (arg : BitVec 48) :
    sysInstr id arg = .sys id arg := by
  simp only [isSyscallId, Bool.or_eq_false_iff, decide_eq_false_iff_not] at h
  obtain ⟨⟨hexit, hsleep⟩, hwrite⟩ := h
  rw [sysInstr, if_neg hexit, if_neg hsleep, if_neg hwrite]

theorem sysSInstr_of_unknownId {id : BitVec 8} (h : isSyscallId id = false) (arg : BitVec 48) :
    sysSInstr id arg = .sysS id arg := by
  simp only [isSyscallId, Bool.or_eq_false_iff, decide_eq_false_iff_not] at h
  obtain ⟨⟨hexit, hsleep⟩, hwrite⟩ := h
  rw [sysSInstr, if_neg hexit, if_neg hsleep, if_neg hwrite]

/-- The word of an instruction carries the opcode of its mnemonic, whatever its format. -/
theorem decodeOpcode_encode (i : Instr) : decodeOpcode (encode i) = opcodeOf i.mnemonic := by
  cases i with
  | incrR _ _ | incrS _ _ | storeSB _ _ | sys _ _ | sysS _ _ | sysExit _ | sysSleep _ | sysWrite _ | sysSExit _
  | sysSSleep _ | sysSWrite _ => exact decodeOpcode_wordPacked _ _ _
  | _ => exact decodeOpcode_wordI _ _

/-- The fields of a well-formed instruction's word are its own. -/
theorem instrOf_encode {i : Instr} (h : WellFormed i = true) : instrOf i.mnemonic (encode i) = i := by
  cases i with
  | incrR _ _ | incrS _ _ | storeSB _ _ => simp [instrOf, encode, Instr.mnemonic]
  | sys id arg =>
    have hid : isSyscallId id = false := by simpa [WellFormed] using h
    simp [instrOf, encode, Instr.mnemonic, sysInstr_of_unknownId hid]
  | sysS id arg =>
    have hid : isSyscallId id = false := by simpa [WellFormed] using h
    simp [instrOf, encode, Instr.mnemonic, sysSInstr_of_unknownId hid]
  | sysExit _ | sysSleep _ | sysWrite _ =>
    simp only [instrOf, encode, Instr.mnemonic, lowField_wordPacked, highField_wordPacked]
    rfl
  | sysSExit _ | sysSSleep _ | sysSWrite _ =>
    simp only [instrOf, encode, Instr.mnemonic, lowField_wordPacked, highField_wordPacked]
    rfl
  | _ => simp [instrOf, encode, Instr.mnemonic]

theorem decode_encode {i : Instr} (h : WellFormed i = true) : decode (encode i) = .ok i := by
  rw [decode_of_opcode (decodeOpcode_encode i), instrOf_encode h]

/-- The eight bytes of a word are read back as that word (R278). -/
theorem decodeBytes_leBytes {w : Word} {i : Instr} (h : decode w = .ok i) (rest : List Byte) :
    decodeBytes (Machine.leBytes w ++ rest) = .ok (i, rest) := by
  simp only [Machine.leBytes, List.cons_append, List.nil_append, decodeBytes, Machine.wordOfBytes_byteOf, h]

/-- Settles O3: the opcode selects the instruction's mnemonic, and that mnemonic's format reads back the fields. -/
theorem decodeOfEncodeIsTheInstruction : Obligations.DecodeOfEncodeIsTheInstruction :=
  fun _ rest h => ⟨decode_encode h, decodeBytes_leBytes (decode_encode h) rest⟩

/-! ## Encode of decode -/

@[simp] theorem encode_sysInstr (id : BitVec 8) (arg : BitVec 48) :
    encode (sysInstr id arg) = wordPacked .sys arg id := by
  unfold sysInstr
  split_ifs with hexit hsleep hwrite
  · rw [hexit, encode]
  · rw [hsleep, encode]
  · rw [hwrite, encode]
  · rfl

@[simp] theorem encode_sysSInstr (id : BitVec 8) (arg : BitVec 48) :
    encode (sysSInstr id arg) = wordPacked .sysS arg id := by
  unfold sysSInstr
  split_ifs with hexit hsleep hwrite
  · rw [hexit, encode]
  · rw [hsleep, encode]
  · rw [hwrite, encode]
  · rfl

@[simp] theorem wellFormed_sysInstr (id : BitVec 8) (arg : BitVec 48) : WellFormed (sysInstr id arg) = true := by
  unfold sysInstr
  split_ifs with hexit hsleep hwrite
  · rfl
  · rfl
  · rfl
  · simp [WellFormed, isSyscallId, hexit, hsleep, hwrite]

@[simp] theorem wellFormed_sysSInstr (id : BitVec 8) (arg : BitVec 48) : WellFormed (sysSInstr id arg) = true := by
  unfold sysSInstr
  split_ifs with hexit hsleep hwrite
  · rfl
  · rfl
  · rfl
  · simp [WellFormed, isSyscallId, hexit, hsleep, hwrite]

/-- Opcode and fields are all of a word. -/
theorem encode_instrOf {m : Mnemonic} {w : Word} (h : opcodeOf m = decodeOpcode w) : encode (instrOf m w) = w := by
  cases m with
  | incrR | incrS | storeSB => exact wordPacked_fields h
  | sys => exact (encode_sysInstr _ _).trans (wordPacked_fields h)
  | sysS => exact (encode_sysSInstr _ _).trans (wordPacked_fields h)
  | _ => exact wordI_fields h

theorem wellFormed_instrOf (m : Mnemonic) (w : Word) : WellFormed (instrOf m w) = true := by
  cases m with
  | sys => exact wellFormed_sysInstr _ _
  | sysS => exact wellFormed_sysSInstr _ _
  | _ => rfl

/-- What a word that decodes is: one whose opcode belongs to a mnemonic, read in that mnemonic's format (R70, R72). -/
theorem decode_eq_ok {w : Word} {i : Instr} (h : decode w = .ok i) :
    ∃ m, opcodeOf m = decodeOpcode w ∧ instrOf m w = i := by
  unfold decode at h
  split at h
  · cases h
  · next m hm => exact ⟨m, opcodeOf_of_mnemonicOf hm, Except.ok.inj h⟩

/-- Settles O4: the mnemonic's format splits the word into fields that are all of it. -/
theorem encodeOfDecodeIsTheWord : Obligations.EncodeOfDecodeIsTheWord := by
  intro w i hdec
  obtain ⟨m, hop, rfl⟩ := decode_eq_ok hdec
  exact ⟨encode_instrOf hop, wellFormed_instrOf m w⟩

/-! ## Which words decode (R70, R72) -/

/-- The opcode values are 1 to 34 (R66; D1). -/
theorem opcodeOf_range (m : Mnemonic) : 1 ≤ (opcodeOf m).toNat ∧ (opcodeOf m).toNat ≤ 34 := by
  cases m <;> decide

theorem exists_opcodeOf_eq {op : BitVec 8} (hlo : 1 ≤ op.toNat) (hhi : op.toNat ≤ 34) : ∃ m, opcodeOf m = op := by
  have catalog : ∀ n : Fin 34, (opcodeOf (Mnemonic.all[n.val]'n.isLt)).toNat = n.val + 1 := by decide
  refine ⟨Mnemonic.all[op.toNat - 1]'(show op.toNat - 1 < 34 by omega), BitVec.eq_of_toNat_eq ?_⟩
  rw [catalog ⟨op.toNat - 1, by omega⟩]
  exact Nat.sub_add_cancel hlo

theorem exists_decode_eq_ok_iff (w : Word) : (∃ i, decode w = .ok i) ↔ ∃ m, opcodeOf m = decodeOpcode w := by
  constructor
  · rintro ⟨i, hdec⟩
    obtain ⟨m, hop, -⟩ := decode_eq_ok hdec
    exact ⟨m, hop⟩
  · rintro ⟨m, hop⟩
    exact ⟨_, decode_of_opcode hop.symm⟩

theorem decode_eq_error_iff (w : Word) :
    decode w = .error ⟨decodeOpcode w⟩ ↔ ∀ m : Mnemonic, opcodeOf m ≠ decodeOpcode w := by
  refine ⟨fun herr m hop => ?_, decode_of_unknownOpcode⟩
  rw [decode_of_opcode hop.symm] at herr
  cases herr

/-- Settles O5: the decoder asks only whether a mnemonic owns the opcode, and those opcodes are 1 to 34. -/
theorem decodeRefusesExactlyTheUnassigned : Obligations.DecodeRefusesExactlyTheUnassigned := by
  intro w
  have assigned : (∃ m, opcodeOf m = decodeOpcode w) ↔ 1 ≤ (decodeOpcode w).toNat ∧ (decodeOpcode w).toNat ≤ 34 :=
    ⟨fun ⟨m, hop⟩ => hop ▸ opcodeOf_range m, fun ⟨hlo, hhi⟩ => exists_opcodeOf_eq hlo hhi⟩
  refine ⟨?_, (exists_decode_eq_ok_iff w).trans assigned⟩
  rw [decode_eq_error_iff, ← not_exists, assigned]
  omega

/-- Settles O6: each example word is a fixed word, which the decoder evaluates. -/
theorem exampleWordsDecode : Obligations.ExampleWordsDecode := by
  unfold Obligations.ExampleWordsDecode
  decide

end Sys2Proof

/-! PROOFS. The ends and the dispatch of a step (40_dispatch.md, R80 to R84; 10_state.md, R29), and the state after
reset (R33). -/

namespace Sys2Proof.Machine

/-- A word that decodes runs as its instruction. -/
theorem step_of_word {s : State} {w : Word} {i : Instr} (hrun : s.status = .running) (hw : s.progWord? s.pc = some w)
    (hdec : decode w = .ok i) : step s = exec i s := by
  simp [step, hrun, State.pastEnd_of_word hw, State.beforeStart_of_word hw, State.fetchWord_of_word hw, hdec]

/-- Settles O10: both range tests pass, and the step is decided by what the decoder answers to the fetched word. -/
theorem stepRunsTheDecodedInstruction : Obligations.StepRunsTheDecodedInstruction :=
  fun _ _ _ hrun hw hdec => step_of_word hrun hw hdec

/-! ## The two range tests of the pc (R81, R82) -/

theorem step_of_pastEnd {s : State} (hrun : s.status = .running) (hpc : s.progLen ≤ s.pc) :
    step s = .next { s with log := s.log ++ [.diag (.fallThrough s.acc)], status := .halted 0 } := by
  have hpast : s.pastEnd = true := by simpa [State.pastEnd] using hpc
  simp only [step, hrun, hpast, if_true]
  rfl

theorem step_of_beforeStart {s : State} (hrun : s.status = .running) (hpc : s.pc < 0) :
    step s = raise .pcFault s := by
  have hpast : s.pastEnd = false := by
    simp only [State.pastEnd, decide_eq_false_iff_not]
    omega
  have hbefore : s.beforeStart = true := by simpa [State.beforeStart] using hpc
  simp only [step, hrun, hpast, hbefore, Bool.false_eq_true, if_false, if_true]

/-- Settles O11: the first range test ends the run; after reset N and the pc are both 0. -/
theorem stepPastTheEndHaltsWithZero : Obligations.StepPastTheEndHaltsWithZero :=
  ⟨fun _ hrun hpc => step_of_pastEnd hrun hpc, step_of_pastEnd (s := State.reset) rfl le_rfl⟩

/-- Settles O12: a negative pc passes the first range test, as N is not negative, and fails the second. -/
theorem stepAtNegativePcIsFatal : Obligations.StepAtNegativePcIsFatal :=
  fun _ hrun hpc => step_of_beforeStart hrun hpc

/-! ## Every instruction answers a next state (R29, R90) -/

theorem orRaise_advance_answers {α : Type} (s : State) (c : Checked α) (u : α → State) :
    ∃ t, orRaise s c (fun v => advance (u v)) = .next t :=
  orRaise_answers s c fun _ => ⟨_, rfl⟩

theorem finishWrite_answers (bytes : List Byte) (accepted : Nat) (s : State) :
    ∃ t, finishWrite bytes accepted s = .next t := by
  unfold finishWrite
  split_ifs
  · exact ⟨_, rfl⟩
  · exact ⟨_, rfl⟩

theorem writeCall_answers (space : Space) (w : Int) (s : State) : ∃ t, writeCall space w s = .next t := by
  refine orRaise_answers _ _ fun length => ?_
  split_ifs
  · exact ⟨_, rfl⟩
  · exact orRaise_answers _ _ fun bytes => finishWrite_answers bytes _ s

theorem syscall_answers (space : Space) (id : BitVec 8) (arg : BitVec 48) (s : State) :
    ∃ t, syscall space id arg s = .next t := by
  unfold syscall
  split_ifs
  · exact ⟨_, rfl⟩
  · exact orRaise_advance_answers s _ _
  · exact writeCall_answers _ _ s
  · exact ⟨_, rfl⟩

theorem jumpIf_answers (taken : Bool) (x : BitVec 56) (s : State) : ∃ t, jumpIf taken x s = .next t := by
  cases taken
  · exact ⟨_, rfl⟩
  · exact ⟨_, rfl⟩

/-- An instruction ends in an advance, a jump or a halt, behind a row of checks each of which goes on or faults. -/
theorem exec_answers (i : Instr) (s : State) : ∃ t, exec i s = .next t := by
  cases i with
  | loadI x | addI x | subI x | mulI x | andI x | jumpR x => exact ⟨_, rfl⟩
  | jnz x | jneg x | jpos x => exact jumpIf_answers _ x s
  | divI x | modI x | shiftI x | loadR x | addR x | subR x | mulR x | storeR x | loadS x | addS x | subS x | mulS x
  | storeS x => exact orRaise_advance_answers s _ _
  | divR x | divS x | incrR delta off | incrS delta off =>
    exact orRaise_answers s _ fun _ => orRaise_advance_answers s _ _
  | push x => exact orRaise_answers s _ fun _ => orRaise_advance_answers s _ _
  | pop x => exact orRaise_answers s _ fun _ => orRaise_answers s _ fun _ => orRaise_advance_answers s _ _
  | call x => exact orRaise_answers s _ fun _ => ⟨_, rfl⟩
  | ret x => exact orRaise_answers s _ fun _ => orRaise_answers s _ fun _ => orRaise_answers s _ fun _ => ⟨_, rfl⟩
  | idivS x | storeSB slot base =>
    exact orRaise_answers s _ fun _ => orRaise_answers s _ fun _ => orRaise_answers s _ fun _ =>
      orRaise_advance_answers s _ _
  | sys id arg | sysS id arg => exact syscall_answers _ id arg s
  | sysExit arg => exact syscall_answers .program Config.syscallExit arg s
  | sysSleep arg => exact syscall_answers .program Config.syscallSleep arg s
  | sysWrite arg => exact syscall_answers .program Config.syscallWrite arg s
  | sysSExit arg => exact syscall_answers .stack Config.syscallExit arg s
  | sysSSleep arg => exact syscall_answers .stack Config.syscallSleep arg s
  | sysSWrite arg => exact syscall_answers .stack Config.syscallWrite arg s

theorem step_answers {s : State} (hrun : s.status = .running) : ∃ t, step s = .next t := by
  by_cases hpast : s.progLen ≤ s.pc
  · exact ⟨_, step_of_pastEnd hrun hpast⟩
  by_cases hbefore : s.pc < 0
  · exact ⟨_, step_of_beforeStart hrun hbefore⟩
  have hw : s.progWord? s.pc = some _ := State.progWord?_of_range (not_lt.1 hbefore) (not_le.1 hpast)
  cases hdec : decode (s.prog.readWord s.pc.toNat) with
  | ok i => exact step_of_word hrun hw hdec ▸ exec_answers i s
  | error e => exact ⟨_, step_of_decode_error hw hrun hdec⟩

theorem step_of_ended {s : State} (h : s.status ≠ .running) : step s = .fault .notRunning := by
  unfold step
  split
  · rfl
  · rfl
  · exact absurd ‹_› h

/-- Settles O14: the range tests, the decoder and every instruction end in a next state, a fault being one. -/
theorem stepsExactlyWhileRunning : Obligations.StepsExactlyWhileRunning :=
  fun _ => ⟨step_answers, step_of_ended⟩

/-! ## The state after reset (R33) -/

/-- Settles O7: each field is the one State.reset gives, and the empty stack lists no cell. -/
theorem resetState : Obligations.ResetState := by
  refine ⟨rfl, rfl, rfl, fun i => ?_, rfl, rfl, rfl⟩
  simp [State.cell?, State.reset, Cells.find?]

theorem State.reset_inv : State.reset.Inv := by decide

/-- Settles O51: with no cell, no byte and no event listed, every clause about listed ones holds of nothing; sp and pc
are the fixed numbers -1 and 0. -/
theorem resetMeetsTheInvariants : Obligations.ResetMeetsTheInvariants := by
  have hlog : State.reset.recordsAgree := fun _ he => absurd he List.not_mem_nil
  have hpc : State.reset.pcFits := by decide
  exact ⟨State.reset_inv, hlog, hpc⟩

end Sys2Proof.Machine

/-! PROOFS. The immediate ALU and the program-relative instructions (41_immediate_alu.md, 43_program_relative.md): what
each answers when its operand is readable and its division does not fault, and the fault of its first failing check. -/

namespace Sys2Proof.Machine

/-- The first failing check of an instruction is the fault it raises, the state unchanged (R90). -/
theorem raises_of_check_error {α : Type} {i : Instr} {s : State} {c : Checked α} {go : α → Answer} {cause : FaultCause}
    (hexec : exec i s = orRaise s c go) (hc : c = .error cause) : Raises i s cause := by
  rw [Raises, hexec, hc]
  rfl

/-! ## The checked operations of the ALU (R105, R107) -/

theorem aluDiv_ok {o : Config.DivOverflow} {a b : Word} (hb : b.toInt ≠ 0) (ho : ¬DivisionOverflows a.toInt b.toInt) :
    aluDiv o a b = .ok (quotient a b) := by
  rw [aluDiv, divCheck_ok hb ho]

theorem aluMod_ok {o : Config.DivOverflow} {a b : Word} (hb : b.toInt ≠ 0) (ho : ¬DivisionOverflows a.toInt b.toInt) :
    aluMod o a b = .ok (remainder a b) := by
  rw [aluMod, divCheck_ok hb ho]

theorem aluDiv_zero {o : Config.DivOverflow} {a b : Word} (hb : b.toInt = 0) : aluDiv o a b = .error .divideByZero := by
  rw [aluDiv, divCheck_zero hb]

theorem aluMod_zero {o : Config.DivOverflow} {a b : Word} (hb : b.toInt = 0) : aluMod o a b = .error .divideByZero := by
  rw [aluMod, divCheck_zero hb]

theorem aluDiv_overflow {a b : Word} (h : DivisionOverflows a.toInt b.toInt) :
    aluDiv divOverflow a b = .error .divideOverflow := by
  rw [aluDiv, divOverflow, divCheck_overflow h]

theorem aluMod_overflow {a b : Word} (h : DivisionOverflows a.toInt b.toInt) :
    aluMod divOverflow a b = .error .divideOverflow := by
  rw [aluMod, divOverflow, divCheck_overflow h]

/-- A shift left by k multiplies modulo 2^64 (R107). -/
theorem shiftBy_left_toNat (k : Nat) (a : Word) : (shiftBy false k a).toNat = a.toNat * 2 ^ k % 2 ^ 64 := by
  simp [shiftBy, Nat.shiftLeft_eq]

/-- A logical shift right by k divides the unsigned value (R107, R10). -/
theorem shiftBy_right_toNat (k : Nat) (a : Word) : (shiftBy true k a).toNat = a.toNat / 2 ^ k := by
  simp [shiftBy, Nat.shiftRight_eq_div_pow]

theorem aluShift_small {o : Config.ShiftOversize} {a : Word} {x : Int} (h : x.natAbs < 64) :
    aluShift o a x = .ok (shiftBy (x < 0) x.natAbs a) :=
  if_pos h

theorem aluShift_oversize {a : Word} {x : Int} (h : 64 ≤ x.natAbs) :
    aluShift shiftOversize a x = .error (.shiftFault x) :=
  if_neg (not_lt.2 h)

/-! ## The immediate instructions -/

/-- Settles O16: each takes its wrapped result into the accumulator, and the operand keeps its signed value. -/
theorem addSubMulImmediateWrap : Obligations.AddSubMulImmediateWrap := by
  intro x s
  have hx : (immediate x).toInt = x.toInt := immediate_toInt x
  refine ⟨⟨_, advance_setAcc s (aluAdd s.acc (immediate x)), rfl, ?_⟩,
    ⟨_, advance_setAcc s (aluSub s.acc (immediate x)), rfl, ?_⟩,
    ⟨_, advance_setAcc s (aluMul s.acc (immediate x)), rfl, ?_⟩⟩
  · rw [aluAdd_toInt, hx]
  · rw [aluSub_toInt, hx]
  · rw [aluMul_toInt, hx]

theorem exec_divI (x : BitVec 56) (s : State) :
    exec (.divI x) s = orRaise s (aluDiv divOverflow s.acc (immediate x)) fun q => advance (s.setAcc q) := rfl

theorem exec_modI (x : BitVec 56) (s : State) :
    exec (.modI x) s = orRaise s (aluMod divOverflow s.acc (immediate x)) fun r => advance (s.setAcc r) := rfl

theorem exec_shiftI (x : BitVec 56) (s : State) :
    exec (.shiftI x) s = orRaise s (aluShift shiftOversize s.acc x.toInt) fun v => advance (s.setAcc v) := rfl

/-- A checked result that passes its check goes into the accumulator. -/
theorem orRaise_advance_setAcc {s : State} {c : Checked Word} {v : Word} (hc : c = .ok v) :
    orRaise s c (fun w => advance (s.setAcc w)) = .next { s with acc := v, pc := s.pc + 1 } := by
  rw [hc, orRaise_ok, advance_setAcc]

/-- Settles O17: the check passes for both, and quotient and remainder are those of one division. -/
theorem divideAndRemainderImmediate : Obligations.DivideAndRemainderImmediate := by
  intro x s hx ho
  rw [← immediate_toInt x] at hx ho ⊢
  exact ⟨_, _, (exec_divI x s).trans (orRaise_advance_setAcc (aluDiv_ok hx ho)),
    (exec_modI x s).trans (orRaise_advance_setAcc (aluMod_ok hx ho)), rfl, rfl, quotient_remainder_isDivision hx ho⟩

/-- Settles O18: below 64 the sign of the count picks the direction, from 64 on the check fails. -/
theorem shiftImmediateByCount : Obligations.ShiftImmediateByCount := by
  intro x s
  refine ⟨fun hsmall => ?_, fun hbig => raises_of_check_error (exec_shiftI x s) (aluShift_oversize hbig)⟩
  refine ⟨_, (exec_shiftI x s).trans (orRaise_advance_setAcc (aluShift_small hsmall)), rfl, fun hleft => ?_,
    fun hright => ?_⟩
  · rw [decide_eq_false hleft.not_gt]
    exact shiftBy_left_toNat _ _
  · rw [decide_eq_true hright]
    exact shiftBy_right_toNat _ _

/-! ## The program-relative instructions -/

section WordReadable

variable {x : BitVec 56} {s : State} {v : Word} (hv : s.progWord? (progAddr s x.toInt) = some v)
include hv

theorem accFromProg_of_word (f : Word → Word → Word) :
    accFromProg f x s = .next { s with acc := f s.acc v, pc := s.pc + 1 } := by
  rw [accFromProg, State.readProg_of_word hv, orRaise_ok, advance_setAcc]

/-- With its word readable, DivR is left with the check of the division (R144). -/
theorem exec_divR_of_word :
    exec (.divR x) s = orRaise s (aluDiv divOverflow s.acc v) fun q => advance (s.setAcc q) := by
  rw [exec, execDivR, State.readProg_of_word hv, orRaise_ok]

end WordReadable

/-- Settles O24: each is the same read of P, followed by its own operation on the accumulator. -/
theorem programRelativeLoadAndArithmetic : Obligations.ProgramRelativeLoadAndArithmetic := by
  intro x s v hv
  exact ⟨⟨_, accFromProg_of_word hv fun _ w => w, rfl, rfl⟩,
    ⟨_, accFromProg_of_word hv aluAdd, rfl, aluAdd_toInt s.acc v⟩,
    ⟨_, accFromProg_of_word hv aluSub, rfl, aluSub_toInt s.acc v⟩,
    ⟨_, accFromProg_of_word hv aluMul, rfl, aluMul_toInt s.acc v⟩⟩

/-- With its word readable, IncrR writes the sum back where it read the word (R146). -/
theorem exec_incrR_of_word {delta : BitVec 8} {off : BitVec 48} {s : State} {v : Word}
    (hv : s.progWord? (progAddr s off.toInt) = some v) :
    exec (.incrR delta off) s =
      .next { s with
        acc := aluAdd v (deltaWord delta)
        prog := s.prog.writeWord (progAddr s off.toInt).toNat (aluAdd v (deltaWord delta))
        pc := s.pc + 1 } := by
  obtain ⟨h₀, h₁, -⟩ := State.progWord?_eq_some hv
  rw [exec, execIncrR, State.readProg_of_word hv, orRaise_ok, State.writeProg_in _ h₀ h₁, orRaise_ok, advance_setAcc]

/-- Settles O27: the accumulator and the word of P take the same wrapped sum. -/
theorem incrRAddsInPlace : Obligations.IncrRAddsInPlace := by
  intro delta off s v hv
  obtain ⟨h₀, h₁, -⟩ := State.progWord?_eq_some hv
  refine ⟨_, exec_incrR_of_word hv, rfl, ?_, progBut_of_writeWord h₀ h₁ rfl rfl⟩
  rw [aluAdd_toInt, deltaWord_toInt]

/-- Settles O28: the range check on the address is the first check of all seven. -/
theorem programAddressOutOfRangeIsFatal : Obligations.ProgramAddressOutOfRangeIsFatal := by
  refine fun s => ⟨fun x hout => ?_, fun delta off hout => raises_of_check_error rfl (State.readProg_out hout)⟩
  have hread : s.readProg (progAddr s x.toInt) = .error (.addressFault (progAddr s x.toInt)) := State.readProg_out hout
  exact ⟨raises_of_check_error rfl hread, raises_of_check_error rfl hread, raises_of_check_error rfl hread,
    raises_of_check_error rfl hread, raises_of_check_error rfl hread, raises_storeR_of_outOfRange hout⟩

/-- Settles O29: StoreR 1 leaves the accumulator at the next pc, where the next step fetches it. -/
theorem storedWordRunsInTheNextStep : Obligations.StoredWordRunsInTheNextStep := by
  intro s i hrun hw hnext hdec
  obtain ⟨hpc, -, -⟩ := State.progWord?_eq_some hw
  have htarget : progAddr s (1 : BitVec 56).toInt = s.pc + 1 := rfl
  have hstore := exec_storeR_of_inRange (x := 1) (s := s) (by omega) (by omega)
  obtain ⟨hstored, -⟩ :
      ProgBut s { s with prog := s.prog.writeWord (s.pc + 1).toNat s.acc, pc := s.pc + 1 } (s.pc + 1) s.acc :=
    progBut_of_writeWord (by omega) hnext rfl rfl
  exact ⟨_, (step_of_word hrun hw (decode_encode rfl)).trans hstore, rfl, hstored, step_of_word hrun hstored hdec⟩

end Sys2Proof.Machine

/-! PROOFS. Call, Ret, Push and Pop (44_call_stack.md): their checks in the order of the rules, and the cells a push
leaves. -/

namespace Sys2Proof.Machine

theorem exec_call_of_room {x : BitVec 56} {s : State} (hroom : s.sp + 1 ≤ 255) :
    exec (.call x) s =
      jumpTo (progAddr s x.toInt) ((s.putCell (s.sp + 1) (word (s.pc + 1))).setSp (s.sp + 1)) := by
  rw [exec, execCall, checkRoom_ok hroom, orRaise_ok]

/-- Settles O30: the check is on the index of the new top cell, which is the one cell written. -/
theorem callPushesTheReturnIndex : Obligations.CallPushesTheReturnIndex := by
  refine fun x s hsp => ⟨fun hroom => ?_, fun hfull => raises_of_check_error rfl (checkRoom_full hfull)⟩
  exact ⟨_, exec_call_of_room hroom, rfl, stackBut_of_putCell (by omega) rfl⟩

/-- Settles O31: the checks pass, as the cell is readable, and the count is dropped unread. -/
theorem retAndPopTakeCells : Obligations.RetAndPopTakeCells :=
  fun _ _ _ hx => ⟨exec_ret_of_cell hx, exec_pop_of_top hx⟩

theorem exec_push_of_room {x : BitVec 56} {s : State} (hx : 0 ≤ x.toInt) (hroom : s.sp + x.toInt + 1 ≤ 255) :
    exec (.push x) s =
      advance (((s.putZeros (s.sp + 1) x.toInt.toNat).putCell (s.sp + x.toInt + 1) s.acc).setSp
        (s.sp + x.toInt + 1)) := by
  rw [exec, execPush, checkCount_ok hx, orRaise_ok, checkRoom_ok hroom, orRaise_ok]

/-- `n` zero cells above the old top and a word above them, by the index of a cell (R162). -/
theorem cell?_putZeros_putCell {s : State} {n : Nat} {w : Word} (hsp : -1 ≤ s.sp) (j : Int) :
    ((s.putZeros (s.sp + 1) n).putCell (s.sp + n + 1) w).cell? j =
      if j = s.sp + n + 1 then some w else if s.sp < j ∧ j ≤ s.sp + n then some 0 else s.cell? j := by
  have htop : 0 ≤ s.sp + n + 1 := by omega
  split_ifs with hj hzero
  · rw [hj, State.putCell_cell?_same w htop]
  · rw [State.putCell_cell?_other w htop hj]
    exact State.putZeros_cell?_in (by omega) (by omega) (by omega)
  · rw [State.putCell_cell?_other w htop hj]
    exact State.putZeros_cell?_out (by omega) (by omega)

/-- Settles O32: the three kinds of cell are the three cases of a lookup after the push. -/
theorem pushReservesZerosUnderTheAccumulator : Obligations.PushReservesZerosUnderTheAccumulator := by
  intro x s hsp hx hroom
  have hcount : ((x.toInt.toNat : Nat) : Int) = x.toInt := Int.toNat_of_nonneg hx
  have hcell (j : Int) := cell?_putZeros_putCell (n := x.toInt.toNat) (w := s.acc) hsp j
  rw [hcount] at hcell
  refine ⟨_, exec_push_of_room hx hroom, ?_, fun j hlo hhi => ?_, ?_, fun j hout => ?_⟩
  · simp [State.setSp]
  · exact (hcell j).trans (by rw [if_neg (by omega), if_pos ⟨hlo, hhi⟩])
  · exact (hcell _).trans (if_pos rfl)
  · exact (hcell j).trans (by rw [if_neg (by omega), if_neg (by omega)])

/-! ## Faults, in the order of the rules (R161 to R163) -/

section CountPasses

variable {x : BitVec 56} (hx : 0 ≤ x.toInt) (s : State)
include hx

theorem exec_push_of_count :
    exec (.push x) s = orRaise s (checkRoom (s.sp + x.toInt + 1)) fun _ =>
      advance (((s.putZeros (s.sp + 1) x.toInt.toNat).putCell (s.sp + x.toInt + 1) s.acc).setSp
        (s.sp + x.toInt + 1)) := by
  rw [exec, execPush, checkCount_ok hx, orRaise_ok]

theorem exec_ret_of_count :
    exec (.ret x) s = orRaise s (checkDepth (s.sp - x.toInt)) fun _ =>
      orRaise s (s.readMarked (s.sp - x.toInt)) fun t => jumpTo t.toInt (s.setSp (s.sp - x.toInt - 1)) := by
  rw [exec, execRet, checkCount_ok hx, orRaise_ok]

theorem exec_pop_of_count :
    exec (.pop x) s = orRaise s (checkDepth (s.sp - x.toInt)) fun _ =>
      orRaise s (s.readMarked s.sp) fun v => advance ((s.setAcc v).setSp (s.sp - 1 - x.toInt)) := by
  rw [exec, execPop, checkCount_ok hx, orRaise_ok]

end CountPasses

/-- Settles O33: in each clause the checks before the failing one pass. -/
theorem countAndDepthFaults : Obligations.CountAndDepthFaults := by
  intro x s
  refine ⟨fun hneg => ?_, fun hx hfull => ?_, fun hx hdeep => ⟨?_, ?_⟩, fun hx hdepth hnone => ?_,
    fun hx hdepth hnone => ?_⟩
  · have hcount := checkCount_neg hneg
    exact ⟨raises_of_check_error rfl hcount, raises_of_check_error rfl hcount, raises_of_check_error rfl hcount⟩
  · exact raises_of_check_error (exec_push_of_count hx s) (checkRoom_full hfull)
  · exact raises_of_check_error (exec_ret_of_count hx s) (checkDepth_neg hdeep)
  · exact raises_of_check_error (exec_pop_of_count hx s) (checkDepth_neg hdeep)
  · have hret := exec_ret_of_count hx s
    rw [checkDepth_ok hdepth, orRaise_ok] at hret
    exact raises_of_check_error hret (State.readMarked_none hnone)
  · have hpop := exec_pop_of_count hx s
    rw [checkDepth_ok hdepth, orRaise_ok] at hpop
    exact raises_of_check_error hpop (State.readMarked_none hnone)

end Sys2Proof.Machine

/-! PROOFS. The stack-relative instructions (45_stack_relative.md), and the divisions of all three groups with their
faults (41_immediate_alu.md, R105). -/

namespace Sys2Proof.Machine

/-! ## What each answers with its cell readable -/

section CellReadable

variable {x : BitVec 56} {s : State} {v : Word} (hv : s.liveCell? (stackIndex s x.toInt) = some v)
include hv

theorem accFromCell_of_cell (f : Word → Word → Word) :
    accFromCell f x s = .next { s with acc := f s.acc v, pc := s.pc + 1 } := by
  rw [accFromCell, State.readCell_live hv, orRaise_ok, advance_setAcc]

/-- With its cell readable, DivS is left with the check of the division (R185). -/
theorem exec_divS_of_cell :
    exec (.divS x) s = orRaise s (aluDiv divOverflow s.acc v) fun q => advance (s.setAcc q) := by
  rw [exec, execDivS, State.readCell_live hv, orRaise_ok]

/-- With its cell readable, IdivS is left with the check of the division, of which the cell is the dividend (R187). -/
theorem exec_idivS_of_cell :
    exec (.idivS x) s = orRaise s (aluDiv divOverflow v s.acc) fun q =>
      orRaise s (aluMod divOverflow v s.acc) fun r =>
        orRaise s (s.writeCell (stackIndex s x.toInt) q) fun t => advance (t.setAcc r) := by
  rw [exec, execIdivS, State.readCell_live hv, orRaise_ok]

end CellReadable

/-- Settles O36: each is the same read of S, followed by its own operation on the accumulator. -/
theorem stackRelativeLoadAndArithmetic : Obligations.StackRelativeLoadAndArithmetic := by
  intro x s v hv
  exact ⟨⟨_, accFromCell_of_cell hv fun _ w => w, rfl, rfl⟩,
    ⟨_, accFromCell_of_cell hv aluAdd, rfl, aluAdd_toInt s.acc v⟩,
    ⟨_, accFromCell_of_cell hv aluSub, rfl, aluSub_toInt s.acc v⟩,
    ⟨_, accFromCell_of_cell hv aluMul, rfl, aluMul_toInt s.acc v⟩⟩

theorem exec_storeS (x : BitVec 56) (s : State) :
    exec (.storeS x) s = orRaise s (s.writeCell (stackIndex s x.toInt) s.acc) advance := rfl

/-- Settles O37: the window check is the only one, and the write sets one cell. -/
theorem storeSSetsOneCell : Obligations.StoreSSetsOneCell := by
  intro x s h₀ h₁
  refine ⟨{ s.putCell (stackIndex s x.toInt) s.acc with pc := s.pc + 1 }, ?_, rfl, stackBut_of_putCell h₀ rfl⟩
  rw [exec_storeS, State.writeCell_in s.acc h₀ h₁, orRaise_ok]
  rfl

/-- With its cell readable, the sum goes back into the cell, and into the accumulator if it mirrors (R186). -/
theorem incrCell_of_cell (mirrors : Bool) {delta : BitVec 8} {off : BitVec 48} {s : State} {v : Word}
    (hv : s.liveCell? (stackIndex s off.toInt) = some v) :
    incrCell mirrors delta off s =
      .next { s.putCell (stackIndex s off.toInt) (aluAdd v (deltaWord delta)) with
        acc := if mirrors then aluAdd v (deltaWord delta) else s.acc
        pc := s.pc + 1 } := by
  obtain ⟨h₀, h₁, -⟩ := State.liveCell?_eq_some hv
  rw [incrCell, State.readCell_live hv, orRaise_ok, State.writeCell_in _ h₀ h₁, orRaise_ok]
  cases mirrors
  · rfl
  · rfl

/-- Settles O38: the cell takes the wrapped sum, and the accumulator is not mirrored. -/
theorem incrSAddsInPlace : Obligations.IncrSAddsInPlace := by
  intro delta off s v hv
  obtain ⟨h₀, -, -⟩ := State.liveCell?_eq_some hv
  refine ⟨_, aluAdd v (deltaWord delta), incrCell_of_cell incrsMirrorsAcc hv, rfl, ?_, stackBut_of_putCell h₀ rfl⟩
  rw [aluAdd_toInt, deltaWord_toInt]

/-- Settles O39: both operations of the one division pass their check before the cell is written. -/
theorem idivSDividesInPlace : Obligations.IdivSDividesInPlace := by
  intro x s cur hcur hacc ho
  obtain ⟨h₀, h₁, -⟩ := State.liveCell?_eq_some hcur
  refine ⟨{ s.putCell (stackIndex s x.toInt) (quotient cur s.acc) with acc := remainder cur s.acc, pc := s.pc + 1 },
    quotient cur s.acc, ?_, rfl, quotient_remainder_isDivision hacc ho, stackBut_of_putCell h₀ rfl⟩
  rw [exec_idivS_of_cell hcur, aluDiv_ok hacc ho, orRaise_ok, aluMod_ok hacc ho, orRaise_ok,
    State.writeCell_in _ h₀ h₁, orRaise_ok]
  rfl

/-! ## StoreSB (R188) -/

/-- With its byte-offset cell readable, StoreSB is left with the check of the offset. -/
theorem exec_storeSB_of_offset {slot : BitVec 8} {base : BitVec 48} {s : State} {bo : Word}
    (hbo : s.liveCell? (stackIndex s slot.toNat) = some bo) :
    exec (.storeSB slot base) s = orRaise s (checkByteOffset bo.toInt) fun _ =>
      orRaise s (s.readCell (byteTarget s base bo.toInt)) fun old =>
        orRaise s (s.writeCell (byteTarget s base bo.toInt) (setByte old (bo.toInt % 8).toNat (byteOf s.acc 0)))
          advance := by
  rw [exec, execStoreSB, State.readCell_live hbo, orRaise_ok]

/-- With an offset that is not negative, it is left with the read of its target cell. -/
theorem exec_storeSB_of_nonneg {slot : BitVec 8} {base : BitVec 48} {s : State} {bo : Word}
    (hbo : s.liveCell? (stackIndex s slot.toNat) = some bo) (hnonneg : 0 ≤ bo.toInt) :
    exec (.storeSB slot base) s = orRaise s (s.readCell (byteTarget s base bo.toInt)) fun old =>
      orRaise s (s.writeCell (byteTarget s base bo.toInt) (setByte old (bo.toInt % 8).toNat (byteOf s.acc 0)))
        advance := by
  rw [exec_storeSB_of_offset hbo, checkByteOffset_ok hnonneg, orRaise_ok]

theorem toInt_emod_eight {v : Word} (h : 0 ≤ v.toInt) : (v.toInt % 8).toNat = v.toNat % 8 := by
  have hv : v.toInt = v.toNat := BitVec.toInt_eq_toNat_of_lt (BitVec.toInt_pos_iff.1 h)
  omega

theorem byteOf_zero (v : Word) : byteOf v 0 = v.setWidth 8 := by
  apply BitVec.eq_of_toNat_eq
  rw [byteOf_zero_toNat, BitVec.toNat_setWidth]

/-- Settles O40: the offset is checked first; then one byte of the target cell is replaced. -/
theorem storeSBReplacesOneByte : Obligations.StoreSBReplacesOneByte := by
  intro slot base s bo hbo
  refine ⟨fun hneg => raises_of_check_error (exec_storeSB_of_offset hbo) (checkByteOffset_neg hneg),
    fun old hnonneg hold => ?_⟩
  obtain ⟨h₀, h₁, -⟩ := State.liveCell?_eq_some hold
  refine ⟨{ s.putCell (byteTarget s base bo.toInt) (setByte old (bo.toInt % 8).toNat (byteOf s.acc 0)) with
      pc := s.pc + 1 }, _, ?_, rfl, stackBut_of_putCell h₀ rfl, fun m hm => ?_⟩
  · rw [exec_storeSB_of_nonneg hbo hnonneg, State.readCell_live hold, orRaise_ok, State.writeCell_in _ h₀ h₁,
      orRaise_ok]
    rfl
  · rw [toInt_emod_eight hnonneg, byteOf_setByte _ _ _ _ (Nat.mod_lt _ (by decide)) hm, byteOf_zero]

/-! ## Divisions by a stored word, and the open parameters -/

/-- Settles O25: with the divisor read, both are the same checked division of the accumulator. -/
theorem divisionByAStoredWord : Obligations.DivisionByAStoredWord := by
  intro x s d hd ho
  have hdiv := orRaise_advance_setAcc (s := s) (aluDiv_ok (o := divOverflow) hd ho)
  exact ⟨fun hword => ⟨_, (exec_divR_of_word hword).trans hdiv, rfl, _, quotient_remainder_isDivision hd ho⟩,
    fun hcell => ⟨_, (exec_divS_of_cell hcell).trans hdiv, rfl, _, quotient_remainder_isDivision hd ho⟩⟩

/-- Settles O21: the first two are the model's operations at their other arguments; mirroring adds the one write of the
accumulator. -/
theorem openParameterAlternatives : Obligations.OpenParameterAlternatives := by
  refine ⟨fun a x hbig => ?_, fun a b ho => ?_, fun delta off s v hv => ?_⟩
  · have hbig' : ¬x.natAbs < 64 := not_lt.2 hbig
    refine ⟨if_neg hbig', fun hleft => ?_, fun hright => ?_⟩
    · simp [aluShift, hbig', shiftBy, hleft.not_gt]
    · simp [aluShift, hbig', shiftBy, hright]
  · obtain ⟨ha, hb⟩ := ho
    have hcheck : divCheck .wrap a b = .ok () := by simp [divCheck, hb]
    have hq : quotient a b = word (-2 ^ 63) := by rw [quotient, ha, hb]; decide
    have hr : remainder a b = 0 := by rw [remainder, ha, hb]; decide
    rw [aluDiv, aluMod, hcheck, ← hq, ← hr]
    exact ⟨rfl, rfl⟩
  · obtain ⟨h₀, -, -⟩ := State.liveCell?_eq_some hv
    exact ⟨_, _, incrCell_of_cell false hv, incrCell_of_cell true hv, rfl, State.putCell_cell?_same _ h₀⟩

end Sys2Proof.Machine

namespace Sys2Proof

section

open Machine

/-- Settles O20: once the divisor is read, the check of the division is the next one in all five. (The model has a
predicate of this theorem's name in the namespace of the machine.) -/
theorem divisionFaults : Obligations.DivisionFaults := by
  intro x s
  refine ⟨fun hzero => ?_, fun ho => ?_, fun d hd => ⟨fun hzero => ?_, fun ho => ?_⟩,
    fun d hd => ⟨fun hzero => ?_, fun ho => ?_⟩, fun cur hcur => ⟨fun hzero => ?_, fun ho => ?_⟩⟩
  · rw [← immediate_toInt x] at hzero
    exact ⟨raises_of_check_error (exec_divI x s) (aluDiv_zero hzero),
      raises_of_check_error (exec_modI x s) (aluMod_zero hzero)⟩
  · rw [← immediate_toInt x] at ho
    exact ⟨raises_of_check_error (exec_divI x s) (aluDiv_overflow ho),
      raises_of_check_error (exec_modI x s) (aluMod_overflow ho)⟩
  · exact raises_of_check_error (exec_divR_of_word hd) (aluDiv_zero hzero)
  · exact raises_of_check_error (exec_divR_of_word hd) (aluDiv_overflow ho)
  · exact raises_of_check_error (exec_divS_of_cell hd) (aluDiv_zero hzero)
  · exact raises_of_check_error (exec_divS_of_cell hd) (aluDiv_overflow ho)
  · exact raises_of_check_error (exec_idivS_of_cell hcur) (aluDiv_zero hzero)
  · exact raises_of_check_error (exec_idivS_of_cell hcur) (aluDiv_overflow ho)

end

end Sys2Proof

/-! PROOFS. The syscalls (46_syscall.md): Exit and Sleep, and Write from the length byte to the end the host's count
gives it. Write is one routine over both stores; a clause about it says which words of the string can be read. -/

namespace Sys2Proof.Machine

/-! ## The forms of each syscall (R202) -/

@[simp] theorem syscall_exit (space : Space) (arg : BitVec 48) (s : State) :
    syscall space Config.syscallExit arg s = exitCall arg s := by
  rw [syscall, if_pos rfl]

@[simp] theorem syscall_write (space : Space) (arg : BitVec 48) (s : State) :
    syscall space Config.syscallWrite arg s = writeCall space (stringWord space arg s) s := by
  rw [syscall, if_neg (by decide), if_neg (by decide), if_pos rfl]

theorem exec_exit_forms (arg : BitVec 48) (s : State) :
    ∀ i ∈ [Instr.sysExit arg, .sysSExit arg, .sys Config.syscallExit arg, .sysS Config.syscallExit arg],
      exec i s = exitCall arg s := by
  have hsys : syscall .program Config.syscallExit arg s = exitCall arg s := syscall_exit _ arg s
  have hsysS : syscall .stack Config.syscallExit arg s = exitCall arg s := syscall_exit _ arg s
  rw [List.forall_mem_cons, List.forall_mem_cons, List.forall_mem_cons, List.forall_mem_singleton]
  exact ⟨hsys, hsysS, hsys, hsysS⟩

/-- The forms of Write on P: the string's word is at pc + arg (R207). -/
theorem exec_sysWrite_forms (arg : BitVec 48) (s : State) :
    ∀ i ∈ [Instr.sysWrite arg, .sys Config.syscallWrite arg],
      exec i s = writeCall .program (progAddr s arg.toInt) s := by
  have hsys := syscall_write .program arg s
  rw [List.forall_mem_cons, List.forall_mem_singleton]
  exact ⟨hsys, hsys⟩

/-- The forms of Write on S: the string's word is at sp − arg (R207). -/
theorem exec_sysSWrite_forms (arg : BitVec 48) (s : State) :
    ∀ i ∈ [Instr.sysSWrite arg, .sysS Config.syscallWrite arg],
      exec i s = writeCall .stack (stackIndex s arg.toInt) s := by
  have hsysS := syscall_write .stack arg s
  rw [List.forall_mem_cons, List.forall_mem_singleton]
  exact ⟨hsysS, hsysS⟩

theorem exec_sysWrite (arg : BitVec 48) (s : State) :
    exec (.sysWrite arg) s = writeCall .program (progAddr s arg.toInt) s :=
  exec_sysWrite_forms arg s _ List.mem_cons_self

theorem exec_sysSWrite (arg : BitVec 48) (s : State) :
    exec (.sysSWrite arg) s = writeCall .stack (stackIndex s arg.toInt) s :=
  exec_sysSWrite_forms arg s _ List.mem_cons_self

/-! ## Exit and Sleep -/

/-- Settles O43: every form of Exit is the one call, which halts after its record. -/
theorem exitHaltsWithTheArgument : Obligations.ExitHaltsWithTheArgument :=
  exec_exit_forms

/-- Settles O44: the range check passes, and the call records the duration and advances. -/
theorem sleepInRangeIsRecorded : Obligations.SleepInRangeIsRecorded := by
  intro arg s hlo hhi i hi
  have hcheck : checkSleep arg.toInt = .ok () := if_neg (by simp only [sleepMin, sleepMax]; omega)
  have harg : arg.toInt = arg.toNat := BitVec.toInt_eq_toNat_of_lt (BitVec.toInt_pos_iff.1 hlo)
  rw [exec_sleep_forms arg s i hi, sleepCall, hcheck, orRaise_ok, harg, Int.toNat_natCast]
  rfl

/-! ## The length byte of a string (R208) -/

section FirstWord

variable {s : State} {space : Space} {w : Int}

theorem readByteOf_wordStart {v : Word} (hv : s.readWordOf space w = .ok v) :
    s.readByteOf space (8 * w) = .ok (byteOf v 0) := by
  rw [State.readByteOf, Int.mul_ediv_cancel_left w (by decide), hv, Int.mul_emod_right]
  rfl

theorem readByteOf_wordStart_error {cause : FaultCause} (hw : s.readWordOf space w = .error cause) :
    s.readByteOf space (8 * w) = .error cause := by
  rw [State.readByteOf, Int.mul_ediv_cancel_left w (by decide), hw]

theorem writeCall_of_firstWord_error {cause : FaultCause} (hw : s.readWordOf space w = .error cause) :
    writeCall space w s = raise cause s := by
  rw [writeCall, readByteOf_wordStart_error hw]
  rfl

/-- An empty string makes no request (R208). -/
theorem writeCall_of_empty {v : Word} (hv : s.readWordOf space w = .ok v) (hlen : v.toNat % 2 ^ 8 = 0) :
    writeCall space w s = .next { s with acc := 0, pc := s.pc + 1 } := by
  rw [writeCall, readByteOf_wordStart hv, orRaise_ok, byteOf_zero_toNat, if_pos hlen, advance_setAcc]

/-- A Write whose payload is all readable hands over its bytes, in increasing address order (R210). -/
theorem writeCall_of_readable {v : Word} (hv : s.readWordOf space w = .ok v) (hlen : v.toNat % 2 ^ 8 ≠ 0)
    (hread : ∀ k : Nat, k < v.toNat % 2 ^ 8 → ∃ b, s.readByteOf space (8 * w + 1 + k) = .ok b) :
    ∃ t bytes, writeCall space w s = .next t ∧ bytes.length = v.toNat % 2 ^ 8 ∧
      (∀ k : Nat, k < bytes.length → ∃ b, s.readByteOf space (8 * w + 1 + k) = .ok b ∧ bytes[k]? = some b) ∧
      WriteOutcome s t bytes := by
  rw [← byteOf_zero_toNat] at hlen hread ⊢
  obtain ⟨bytes, hrun, hbytes, hget⟩ := State.readBytesOf_ok hread
  obtain ⟨t, hfinish, houtcome⟩ := finishWrite_outcome s bytes
  refine ⟨t, bytes, ?_, hbytes, fun k hk => hget k (hbytes ▸ hk), houtcome⟩
  rw [writeCall_ok (readByteOf_wordStart hv) hlen hrun, hfinish]

/-- A Write faults at the first byte of its payload that cannot be read, before anything is handed over (R209). -/
theorem writeCall_of_unreadable {v : Word} {m : Nat} {cause : FaultCause} (hv : s.readWordOf space w = .ok v)
    (hm : m < v.toNat % 2 ^ 8) (hread : ∀ k : Nat, k < m → ∃ b, s.readByteOf space (8 * w + 1 + k) = .ok b)
    (herr : s.readByteOf space (8 * w + 1 + m) = .error cause) : writeCall space w s = raise cause s := by
  rw [← byteOf_zero_toNat] at hm
  rw [writeCall, readByteOf_wordStart hv, orRaise_ok, if_neg (Nat.ne_zero_of_lt hm),
    State.readBytesOf_error hm hread herr]
  rfl

end FirstWord

/-- Settles O47: the length byte of the readable first word is 0, in either store. -/
theorem emptyStringMakesNoRequest : Obligations.EmptyStringMakesNoRequest := by
  intro arg s v hlen
  refine ⟨fun hword i hi => ?_, fun hcell i hi => ?_⟩
  · rw [exec_sysWrite_forms arg s i hi]
    exact writeCall_of_empty (State.readProg_of_word hword) hlen
  · rw [exec_sysSWrite_forms arg s i hi]
    exact writeCall_of_empty (State.readCell_live hcell) hlen

/-! ## The bytes handed over -/

/-- Settles O48: every byte of the payload lies in a word of P. -/
theorem writeHandsOverProgramBytes : Obligations.WriteHandsOverProgramBytes := by
  intro arg s v hword hlen hfits i hi
  obtain ⟨h₀, -, -⟩ := State.progWord?_eq_some hword
  have hbyte (k : Nat) (hk : k < v.toNat % 2 ^ 8) :
      s.readByteOf .program (8 * progAddr s arg.toInt + 1 + k) =
        .ok (s.prog.readByte (8 * progAddr s arg.toInt + 1 + k).toNat) :=
    State.readByteOf_program (by omega) (by omega)
  obtain ⟨t, bytes, hwrite, hbytes, hget, houtcome⟩ :=
    writeCall_of_readable (space := .program) (State.readProg_of_word hword) hlen fun k hk => ⟨_, hbyte k hk⟩
  refine ⟨t, bytes, (exec_sysWrite_forms arg s i hi).trans hwrite, hbytes, fun k hk => ?_, houtcome⟩
  obtain ⟨b, hread, hb⟩ := hget k hk
  rw [hbyte k (hbytes ▸ hk)] at hread
  rw [hb, Except.ok.inj hread]

/-- The byte `j` places into a string at cell `w` lies in the cell `j / 8` above it. -/
theorem readByteOf_string_cell {s : State} {w : Int} {j n : Nat} (hj : j / 8 ≤ n)
    (hlive : ∀ k : Nat, k ≤ n → (s.liveCell? (w + k)).isSome) :
    ∃ cell, s.cell? ((8 * w + j) / 8) = some cell ∧
      s.readByteOf .stack (8 * w + j) = .ok (byteOf cell ((8 * w + j) % 8).toNat) := by
  obtain ⟨cell, hcell⟩ := Option.isSome_iff_exists.1 (hlive (j / 8) hj)
  have hindex : w + (j / 8 : Nat) = (8 * w + j) / 8 := by omega
  rw [hindex] at hcell
  obtain ⟨-, -, hmarked⟩ := State.liveCell?_eq_some hcell
  exact ⟨cell, hmarked, State.readByteOf_stack hcell⟩

/-- Settles O49: every byte of the payload lies in a written cell of the live window. -/
theorem writeHandsOverStackBytes : Obligations.WriteHandsOverStackBytes := by
  intro arg s v hcell hlen hlive i hi
  have hbyte (k : Nat) (hk : k < v.toNat % 2 ^ 8) :
      ∃ cell, s.cell? ((8 * stackIndex s arg.toInt + 1 + k) / 8) = some cell ∧
        s.readByteOf .stack (8 * stackIndex s arg.toInt + 1 + k) =
          .ok (byteOf cell ((8 * stackIndex s arg.toInt + 1 + k) % 8).toNat) := by
    have hstring := readByteOf_string_cell (j := 1 + k) (by omega) hlive
    rwa [Int.natCast_add, Int.natCast_one, ← Int.add_assoc] at hstring
  obtain ⟨t, bytes, hwrite, hbytes, hget, houtcome⟩ :=
    writeCall_of_readable (space := .stack) (State.readCell_live hcell) hlen fun k hk =>
      have ⟨_, _, hread⟩ := hbyte k hk
      ⟨_, hread⟩
  refine ⟨t, bytes, (exec_sysSWrite_forms arg s i hi).trans hwrite, hbytes, fun k hk => ?_, houtcome⟩
  obtain ⟨cell, hmarked, hread⟩ := hbyte k (hbytes ▸ hk)
  obtain ⟨b, hread', hb⟩ := hget k hk
  rw [hread] at hread'
  rw [hb, hmarked, Option.map_some, Except.ok.inj hread']

/-! ## Strings that leave the addressable words (R209, D21) -/

/-- A string in P that passes its end names N: the byte 8N is the first that cannot be read. -/
theorem raises_sysWrite_pastEnd {arg : BitVec 48} {s : State} {v : Word}
    (hword : s.progWord? (progAddr s arg.toInt) = some v)
    (hpast : s.progLen ≤ progAddr s arg.toInt + (v.toNat % 2 ^ 8 : Nat) / 8) :
    Raises (.sysWrite arg) s (.addressFault s.progLen) := by
  obtain ⟨h₀, h₁, -⟩ := State.progWord?_eq_some hword
  obtain ⟨m, hm⟩ : ∃ m : Nat, 8 * progAddr s arg.toInt + 1 + m = 8 * s.progLen :=
    ⟨(8 * s.progLen - 8 * progAddr s arg.toInt - 1).toNat, by omega⟩
  have herr : s.readByteOf .program (8 * progAddr s arg.toInt + 1 + m) = .error (.addressFault s.progLen) := by
    rw [hm, State.readByteOf_program_out (.inr (by omega)), Int.mul_ediv_cancel_left _ (by decide)]
  rw [Raises, exec_sysWrite]
  exact writeCall_of_unreadable (State.readProg_of_word hword) (by omega)
    (fun k hk => ⟨_, State.readByteOf_program (by omega) (by omega)⟩) herr

/-- A string in S names its first cell that cannot be read, all cells before it being readable. -/
theorem raises_sysSWrite_of_laterCell {arg : BitVec 48} {s : State} {v : Word} {n : Nat} {cause : FaultCause}
    (hcell : s.liveCell? (stackIndex s arg.toInt) = some v) (hn : 1 ≤ n) (hlen : n ≤ (v.toNat % 2 ^ 8) / 8)
    (hlive : ∀ k < n, (s.liveCell? (stackIndex s arg.toInt + (k : Nat))).isSome)
    (herr : s.readCell (stackIndex s arg.toInt + n) = .error cause) : Raises (.sysSWrite arg) s cause := by
  have hread (k : Nat) (hk : k < 8 * n - 1) :
      ∃ b, s.readByteOf .stack (8 * stackIndex s arg.toInt + 1 + k) = .ok b := by
    obtain ⟨cell, -, hbyte⟩ := readByteOf_string_cell (j := 1 + k) (n := n - 1) (by omega)
      fun k hk => hlive k (by omega)
    rw [Int.natCast_add, Int.natCast_one, ← Int.add_assoc] at hbyte
    exact ⟨_, hbyte⟩
  have hfail : s.readByteOf .stack (8 * stackIndex s arg.toInt + 1 + (8 * n - 1 : Nat)) = .error cause := by
    apply State.readByteOf_stack_error
    rw [show (8 * stackIndex s arg.toInt + 1 + (8 * n - 1 : Nat)) / 8 = stackIndex s arg.toInt + n by omega, herr]
  rw [Raises, exec_sysSWrite]
  exact writeCall_of_unreadable (State.readCell_live hcell) (by omega) hread hfail

/-- Settles O50: the string's words are read in order, so the first that fails is the one named. -/
theorem writeOutOfBoundsIsFatal : Obligations.WriteOutOfBoundsIsFatal := by
  intro arg s
  refine ⟨fun hout => ?_, fun v hword hpast => raises_sysWrite_pastEnd hword hpast,
    fun v n hcell hn hlen hlive => ⟨fun hout => ?_, fun hin hnone => ?_⟩⟩
  · rw [Raises, exec_sysWrite]
    exact writeCall_of_firstWord_error (State.readProg_out hout)
  · exact raises_sysSWrite_of_laterCell hcell hn hlen hlive (State.readCell_out (.inr hout))
  · obtain ⟨h₀, -, -⟩ := State.liveCell?_eq_some hcell
    exact raises_sysSWrite_of_laterCell hcell hn hlen hlive (State.readCell_unwritten (by omega) hin hnone)

/-! ## A first read of S that fails (R27, R46) -/

section FirstReadFails

variable {s : State} {cause : FaultCause}

theorem raises_of_readCell_error {x : BitVec 56} (h : s.readCell (stackIndex s x.toInt) = .error cause) :
    ∀ i ∈ [Instr.loadS x, .addS x, .subS x, .mulS x, .divS x, .idivS x], Raises i s cause := by
  rw [List.forall_mem_cons, List.forall_mem_cons, List.forall_mem_cons, List.forall_mem_cons, List.forall_mem_cons,
    List.forall_mem_singleton]
  exact ⟨raises_of_check_error rfl h, raises_of_check_error rfl h, raises_of_check_error rfl h,
    raises_of_check_error rfl h, raises_of_check_error rfl h, raises_of_check_error rfl h⟩

theorem raises_incrS_of_readCell_error {delta : BitVec 8} {off : BitVec 48}
    (h : s.readCell (stackIndex s off.toInt) = .error cause) : Raises (.incrS delta off) s cause :=
  raises_of_check_error rfl h

theorem raises_storeSB_of_offset_error {slot : BitVec 8} {base : BitVec 48}
    (h : s.readCell (stackIndex s slot.toNat) = .error cause) : Raises (.storeSB slot base) s cause :=
  raises_of_check_error rfl h

theorem raises_storeSB_of_target_error {slot : BitVec 8} {base : BitVec 48} {bo : Word}
    (hbo : s.liveCell? (stackIndex s slot.toNat) = some bo) (hnonneg : 0 ≤ bo.toInt)
    (h : s.readCell (byteTarget s base bo.toInt) = .error cause) : Raises (.storeSB slot base) s cause :=
  raises_of_check_error (exec_storeSB_of_nonneg hbo hnonneg) h

theorem raises_sysSWrite_of_readCell_error {arg : BitVec 48} (h : s.readCell (stackIndex s arg.toInt) = .error cause) :
    Raises (.sysSWrite arg) s cause := by
  rw [Raises, exec_sysSWrite]
  exact writeCall_of_firstWord_error h

end FirstReadFails

/-- Settles O41: an index outside the window fails the first test of a read, and that of a write too. -/
theorem accessOutsideTheWindowIsFatal : Obligations.AccessOutsideTheWindowIsFatal := by
  intro s
  refine ⟨fun x hout => ?_, fun _ _ hout => raises_incrS_of_readCell_error (State.readCell_out hout),
    fun _ _ hout => raises_storeSB_of_offset_error (State.readCell_out hout),
    fun _ _ _ hbo hnonneg hout => raises_storeSB_of_target_error hbo hnonneg (State.readCell_out hout),
    fun _ hout => raises_sysSWrite_of_readCell_error (State.readCell_out hout)⟩
  obtain ⟨hloadS, hothers⟩ := List.forall_mem_cons.1 (raises_of_readCell_error (State.readCell_out hout))
  have hstoreS : Raises (.storeS x) s (.stackFault .window (stackIndex s x.toInt)) :=
    raises_of_check_error (exec_storeS x s) (State.writeCell_out s.acc hout)
  exact List.forall_mem_cons.2 ⟨hloadS, List.forall_mem_cons.2 ⟨hstoreS, hothers⟩⟩

/-- Settles O42: inside the window it is the mark that a read tests next. -/
theorem unwrittenCellReadIsFatal : Obligations.UnwrittenCellReadIsFatal := by
  intro s
  exact ⟨fun _ h₀ h₁ hnone => raises_of_readCell_error (State.readCell_unwritten h₀ h₁ hnone),
    fun _ _ h₀ h₁ hnone => raises_incrS_of_readCell_error (State.readCell_unwritten h₀ h₁ hnone),
    fun _ _ h₀ h₁ hnone => raises_storeSB_of_offset_error (State.readCell_unwritten h₀ h₁ hnone),
    fun _ _ _ hbo hnonneg h₀ h₁ hnone =>
      raises_storeSB_of_target_error hbo hnonneg (State.readCell_unwritten h₀ h₁ hnone),
    fun _ h₀ h₁ hnone => raises_sysSWrite_of_readCell_error (State.readCell_unwritten h₀ h₁ hnone)⟩

end Sys2Proof.Machine

/-! PROOFS. The boot path (70_reset_and_hazards.md, R270 to R281). Every image spoken of begins with MAGIC or is refused
at once; past the header check, three comparisons of lengths decide. -/

namespace Sys2Proof.Machine

/-! ## The checks of the loader, in their order (R275 to R280) -/

/-- However much is delivered of an image that begins with MAGIC, what remains are the checks after the header. -/
theorem load_of_prefix (body : List Byte) (size n : Nat) (canAllocate : Bool) (hsize : 8 ≤ size) :
    load ⟨size, (magic ++ body).take n, canAllocate⟩ =
      if (size - 8) % 8 ≠ 0 then .loadError .sizeMismatch
      else if ((magic ++ body).take n).length < size then .loadError .shortRead
      else if !canAllocate then .loadError .allocFailure
      else .loaded (State.resetWith ((((magic ++ body).take n).take size).drop 8)) := by
  rw [load, if_neg]
  rintro (hshort | hmismatch)
  · exact absurd hshort (not_lt.2 hsize)
  · exact hmismatch (header_of_prefix body n)

/-- The same for an image delivered whole. -/
theorem load_of_all (body : List Byte) (canAllocate : Bool) :
    load ⟨8 + body.length, magic ++ body, canAllocate⟩ =
      if body.length % 8 ≠ 0 then .loadError .sizeMismatch
      else if !canAllocate then .loadError .allocFailure
      else .loaded (State.resetWith body) := by
  have hlength : (magic ++ body).length = 8 + body.length := List.length_append
  have htake : (magic ++ body).take (8 + body.length) = magic ++ body := List.take_of_length_le hlength.le
  have hdrop : (magic ++ body).drop 8 = body := List.drop_left' rfl
  have hload := load_of_prefix body (8 + body.length) (8 + body.length) canAllocate (Nat.le_add_right 8 _)
  rwa [htake, htake, hlength, if_neg (lt_irrefl _), Nat.add_sub_cancel_left, hdrop] at hload

theorem whole_magic (body : List Byte) :
    ImageSource.whole (magic ++ body) = ⟨8 + body.length, magic ++ body, true⟩ := by
  rw [ImageSource.whole, List.length_append]
  rfl

theorem load_of_badHeader {bytes : List Byte} (h : bytes.take 8 ≠ magic) :
    load (ImageSource.whole bytes) = .loadError .badMagic := by
  refine if_pos ?_
  by_cases hshort : bytes.length < 8
  · exact .inl hshort
  · refine .inr ?_
    show bytes.take 8 ≠ magic.take bytes.length
    rwa [magic_take (not_lt.1 hshort)]

/-- A good image of which fewer bytes than its size are delivered (R280; log entry 13). -/
theorem load_of_cut (words : List Word) {n : Nat} (hn : n < 8 + 8 * words.length) :
    load ⟨8 + 8 * words.length, (magic ++ words.flatMap leBytes).take n, true⟩ = .loadError .shortRead := by
  have hdelivered : ((magic ++ words.flatMap leBytes).take n).length < 8 + 8 * words.length :=
    lt_of_le_of_lt (List.length_take_le n _) hn
  rw [load_of_prefix _ _ _ _ (Nat.le_add_right 8 _), Nat.add_sub_cancel_left, Nat.mul_mod_right,
    if_neg (not_not.2 rfl), if_pos hdelivered]

/-- Past the header check, an image of whole words delivered whole depends only on whether P can be created. -/
theorem load_of_words (words : List Word) (canAllocate : Bool) :
    load ⟨8 + 8 * words.length, magic ++ words.flatMap leBytes, canAllocate⟩ =
      if !canAllocate then .loadError .allocFailure else .loaded (State.resetWith (words.flatMap leBytes)) := by
  have hload := load_of_all (words.flatMap leBytes) canAllocate
  rwa [flatMap_leBytes_length, Nat.mul_mod_right, if_neg (not_not.2 rfl)] at hload

/-- Settles O9: the clauses are the loader's four checks, in their order. -/
theorem loaderRefusesBadImages : Obligations.LoaderRefusesBadImages := by
  refine ⟨fun _ hheader => load_of_badHeader hheader, fun body hbody => ?_, fun words n _ hn => load_of_cut words hn,
    fun words => load_of_words words false, fun _ => ⟨rfl, rfl⟩⟩
  rw [whole_magic, load_of_all, if_pos hbody]

/-- Settles O60: an image that cannot be opened reaches no check; a cut header agrees with as much of MAGIC. -/
theorem bootRefusesUnopenedAndCutImages : Obligations.BootRefusesUnopenedAndCutImages :=
  ⟨rfl, rfl, rfl, fun _ => rfl, fun words _ hn => load_of_cut words (by omega)⟩

/-! ## The program store of a good image (R278, R279) -/

theorem flatMap_leBytes_getElem? (words : List Word) (k : Nat) {j : Nat} (hj : j < 8) :
    (words.flatMap leBytes)[8 * k + j]? = words[k]?.map fun v => byteOf v j := by
  induction words generalizing k with
  | nil => rfl
  | cons v rest ih =>
    have hlength : (leBytes v).length = 8 := rfl
    rw [List.flatMap_cons]
    cases k with
    | zero =>
      rw [List.getElem?_append_left (by omega), List.getElem?_cons_zero, Option.map_some]
      interval_cases j <;> rfl
    | succ k =>
      rw [List.getElem?_append_right (by omega), List.getElem?_cons_succ, ← ih,
        show 8 * (k + 1) + j - (leBytes v).length = 8 * k + j by omega]

/-- A store filled from the bytes of words reads as those words. -/
theorem readWord_ofBytes_flatMap (words : List Word) {k : Nat} (hk : k < words.length) :
    (Memory.ofBytes 0 (words.flatMap leBytes)).readWord k = words[k] := by
  have hread (j : Nat) (hj : j < 8) :
      (Memory.ofBytes 0 (words.flatMap leBytes)).readByte (8 * k + j) = byteOf words[k] j := by
    have hin : 8 * k + j < (words.flatMap leBytes).length := by
      rw [flatMap_leBytes_length]
      omega
    have hbyte := Memory.readByte_ofBytes 0 (8 * k + j) _ hin
    have hget := flatMap_leBytes_getElem? words k hj
    rw [List.getElem?_eq_getElem hin, List.getElem?_eq_getElem hk, Option.map_some] at hget
    rw [Nat.zero_add] at hbyte
    rw [hbyte, Option.some.inj hget]
  rw [Memory.readWord, show (Memory.ofBytes 0 (words.flatMap leBytes)).readByte (8 * k) = _ from hread 0 (by decide),
    hread 1 (by decide), hread 2 (by decide), hread 3 (by decide), hread 4 (by decide), hread 5 (by decide),
    hread 6 (by decide), hread 7 (by decide), wordOfBytes_byteOf]

theorem resetWith_words_progLen (words : List Word) :
    (State.resetWith (words.flatMap leBytes)).progLen = words.length := by
  show (words.flatMap leBytes).length / 8 = words.length
  rw [flatMap_leBytes_length, Nat.mul_div_cancel_left _ (by decide)]

theorem resetWith_words_progWord? (words : List Word) (k : Nat) :
    (State.resetWith (words.flatMap leBytes)).progWord? k = words[k]? := by
  have hlen := resetWith_words_progLen words
  by_cases hk : k < words.length
  · rw [State.progWord?_of_range (by omega) (by omega), List.getElem?_eq_getElem hk, Int.toNat_natCast]
    exact congrArg some (readWord_ofBytes_flatMap words hk)
  · rw [List.getElem?_eq_none (not_lt.1 hk)]
    exact if_neg (by omega)

/-- A program of whole words meets the invariant: every byte of P is inside its N words, and the stack is empty. -/
theorem resetWith_inv {program : List Byte} (h : program.length % 8 = 0) : (State.resetWith program).Inv := by
  obtain ⟨hwf, hinside⟩ := Memory.ofBytes_wf 0 program
  obtain ⟨-, hstack, hsp, hwindow⟩ := State.reset_inv
  refine ⟨⟨hwf, fun c hc => ?_⟩, hstack, hsp, hwindow⟩
  have hc' := hinside c hc
  show c.1 < 8 * (program.length / 8)
  omega

/-- Settles O8: the image passes every check, and P is filled with the bytes of the words, each its own eight. -/
theorem loaderFillsTheProgramStore : Obligations.LoaderFillsTheProgramStore := by
  intro words
  have hload : load (ImageSource.whole (magic ++ words.flatMap leBytes)) =
      .loaded (State.resetWith (words.flatMap leBytes)) := by
    rw [whole_magic, flatMap_leBytes_length]
    exact load_of_words words true
  exact ⟨_, hload, rfl, resetWith_words_progLen words, resetWith_words_progWord? words,
    resetWith_inv (by rw [flatMap_leBytes_length, Nat.mul_mod_right])⟩

end Sys2Proof.Machine

/-! PROOFS. What every step keeps (10_state.md, 60_exceptions.md). All of it is read off the kinds of next state a step
can answer (`Effect`), not off the instructions: the length of P and the log, the range of the pc, the records of
faults, the one diagnostic record, and the invariant of the two stores. -/

namespace Sys2Proof.Machine

variable {s t : State}

/-! ## The length of P, the log and the pc -/

theorem Effect.progLen_eq (h : Effect s t) : t.progLen = s.progLen := by
  cases h with
  | push w n p hp hroom => exact State.putZeros_progLen s (s.sp + 1) n
  | _ => rfl

theorem Effect.log_grows (h : Effect s t) : ∃ events, t.log = s.log ++ events := by
  cases h with
  | fault | halt | sleep | wrote => exact ⟨_, rfl⟩
  | registers | drop | progWrite | cellWrite => exact ⟨[], (List.append_nil _).symm⟩
  | push w n p hp hroom => exact ⟨[], by simp⟩
  | writeFailed bytes n hn => exact ⟨_, List.append_assoc _ _ _⟩

/-- Settles O55: no kind of next state sets N, and each appends to the log or leaves it. -/
theorem programLengthFixedAndLogOnlyGrows : Obligations.ProgramLengthFixedAndLogOnlyGrows := by
  intro s t hstep
  obtain ⟨-, heffect, -⟩ := step_effect hstep
  exact ⟨heffect.progLen_eq, heffect.log_grows⟩

theorem Effect.pc_stays_or_target (h : Effect s t) : t.pc = s.pc ∨ PcTarget s t.pc := by
  cases h with
  | fault | halt | writeFailed => exact .inl rfl
  | registers v p hp => exact .inr hp
  | drop v p sp hp => exact .inr hp
  | push w n p hp => exact .inr hp
  | progWrite | cellWrite | sleep | wrote => exact .inr (.inl rfl)

/-- An operand reaches less than 2^55 words either way, and a popped word is a 64-bit value. -/
theorem PcTarget.fits {p : Int} (h : PcTarget s p) (hlo : 0 ≤ s.pc) (hhi : s.pc < 2 ^ 62) :
    -2 ^ 63 ≤ p ∧ p < 2 ^ 63 := by
  rcases h with rfl | ⟨x, rfl⟩ | ⟨v, rfl⟩
  · omega
  · have hx := operand_bounds x
    omega
  · exact int_bounds v

/-- Settles O54: the pc a step starts at is below 2^62, or the run ends with the pc where it is. -/
theorem pcStaysInSixtyFourBits : Obligations.PcStaysInSixtyFourBits := by
  intro s t hlen hfits hstep
  obtain ⟨-, heffect, ⟨hlo, hhi⟩ | ⟨hpc, -⟩⟩ := step_effect hstep
  · rcases heffect.pc_stays_or_target with hpc | htarget
    · rwa [State.pcFits, hpc]
    · exact htarget.fits hlo (by omega)
  · rwa [State.pcFits, hpc]

/-! ## Fatal ends (R90, R230) -/

/-- The two ways to end Fatal: a fault before any write, and a failed output. -/
theorem Effect.of_fatal {r : FaultRecord} (h : Effect s t) (hrun : s.status = .running) (hfatal : t.status = .fatal r) :
    (CauseFits s r.cause ∧ r = ⟨r.cause, s.pc⟩ ∧ t = s.faulted r.cause) ∨
      ∃ bytes n, n < bytes.length ∧ r = ⟨.writeIO bytes.length n, s.pc⟩ ∧
        t = ((s.hostWrote bytes n).setAcc (word (-1))).faulted (.writeIO bytes.length n) := by
  cases h with
  | fault cause hcause =>
    cases hfatal
    exact .inl ⟨hcause, rfl, rfl⟩
  | writeFailed bytes n hn =>
    cases hfatal
    exact .inr ⟨bytes, n, hn, rfl, rfl⟩
  | halt record n hrecord => cases hfatal
  | push w n p hp hroom =>
    rw [State.putCell_status, State.putZeros_status, hrun] at hfatal
    cases hfatal
  | registers | drop | progWrite | cellWrite | sleep | wrote =>
    have hstatus : s.status = .fatal r := hfatal
    rw [hrun] at hstatus
    cases hstatus

/-- Settles O57: both ways to end Fatal carry the old pc and differ from the old state as the statement says. -/
theorem faultsArePrecise : Obligations.FaultsArePrecise := by
  intro s t r hstep hfatal
  obtain ⟨hrun, heffect, -⟩ := step_effect hstep
  rcases heffect.of_fatal hrun hfatal with ⟨-, hr, rfl⟩ | ⟨bytes, n, hn, rfl, rfl⟩
  · rw [hr]
    exact ⟨rfl, .inl rfl⟩
  · refine ⟨rfl, .inr ⟨bytes, n, hn, rfl, ?_⟩⟩
    simp [State.faulted, State.setAcc, State.hostWrote, State.emit]

/-- Settles O56: the cause of an unwritten read names a cell of the live window, which the invariant has written. -/
theorem noUnwrittenReadFromTheInvariant : Obligations.NoUnwrittenReadFromTheInvariant := by
  intro s t hinv hstep i pc hfatal
  obtain ⟨-, -, -, hwritten⟩ := hinv
  obtain ⟨hrun, heffect, -⟩ := step_effect hstep
  rcases heffect.of_fatal hrun hfatal with ⟨hcause, -, -⟩ | ⟨bytes, n, -, hr, -⟩
  · obtain ⟨h₀, h₁, hnone⟩ := hcause.unwritten i rfl
    have hsome := hwritten i.toNat (by omega)
    rw [Int.toNat_of_nonneg h₀, hnone] at hsome
    cases hsome
  · cases hr

/-! ## The one diagnostic record (R252) -/

theorem recordsAgree_of_running (hrun : t.status = .running) (hlog : ∀ e ∈ t.log, e.isDiag = false) :
    t.recordsAgree := by
  rwa [State.recordsAgree, hrun]

/-- A record appended to a log that holds none is the only one, and the last event. -/
theorem endsWith_of_append {log : List HostEvent} {record : DiagRecord} (hlog : ∀ e ∈ log, e.isDiag = false)
    (ht : t.log = log ++ [.diag record]) : t.endsWith record := by
  rw [State.endsWith, ht, List.getLast?_concat, List.dropLast_concat]
  exact ⟨rfl, hlog⟩

theorem recordsAgree_of_fatal {log : List HostEvent} {r : FaultRecord} (hstatus : t.status = .fatal r)
    (hlog : ∀ e ∈ log, e.isDiag = false) (ht : t.log = log ++ [.diag (.fatal r)]) : t.recordsAgree := by
  rw [State.recordsAgree, hstatus]
  exact endsWith_of_append hlog ht

/-- An event that is no record, appended to a log that holds none. -/
theorem noRecord_append {log : List HostEvent} {event : HostEvent} (hlog : ∀ e ∈ log, e.isDiag = false)
    (hevent : event.isDiag = false) : ∀ e ∈ log ++ [event], e.isDiag = false := by
  intro e he
  rcases List.mem_append.1 he with hold | hnew
  · exact hlog e hold
  · rwa [List.mem_singleton.1 hnew]

theorem Effect.recordsAgree (h : Effect s t) (hrun : s.status = .running) (hlog : ∀ e ∈ s.log, e.isDiag = false) :
    t.recordsAgree := by
  cases h with
  | fault cause hcause => exact recordsAgree_of_fatal rfl hlog rfl
  | halt record n hrecord =>
    rcases hrecord with rfl | ⟨rfl, rfl⟩
    · exact .inl (endsWith_of_append hlog rfl)
    · exact .inr ⟨rfl, endsWith_of_append hlog rfl⟩
  | registers | drop | progWrite | cellWrite => exact recordsAgree_of_running hrun hlog
  | push w n p hp hroom => exact recordsAgree_of_running (by simpa using hrun) (by simpa using hlog)
  | sleep | wrote => exact recordsAgree_of_running hrun (noRecord_append hlog rfl)
  | writeFailed bytes n hn => exact recordsAgree_of_fatal rfl (noRecord_append hlog rfl) rfl

/-- Settles O53: a step starts from a running state, whose log holds no record, and appends one exactly when it ends the
run. -/
theorem oneDiagnosticRecordAtTheEnd : Obligations.OneDiagnosticRecordAtTheEnd := by
  intro s t hagree hstep
  obtain ⟨hrun, heffect, -⟩ := step_effect hstep
  rw [State.recordsAgree, hrun] at hagree
  exact heffect.recordsAgree hrun hagree

/-! ## The invariant of the stores (R25 to R28) -/

theorem progCanonical_writeWord {a : Int} (h : s.progCanonical) (h₀ : 0 ≤ a) (h₁ : a < s.progLen) (w : Word) :
    { s with prog := s.prog.writeWord a.toNat w }.progCanonical := by
  obtain ⟨hwf, hinside⟩ := h
  refine ⟨Memory.wf_writeWord _ _ hwf, fun c hc => ?_⟩
  show c.1 < 8 * s.progLen
  rcases Memory.mem_writeWord hc with hnew | hold
  · omega
  · exact hinside c hold

theorem stackCanonical_putCell {i : Int} (h : s.stackCanonical) (hi : i ≤ 255) (w : Word) :
    (s.putCell i w).stackCanonical := by
  obtain ⟨hrising, hinside⟩ := h
  refine ⟨Cells.rising_put _ _ hrising, fun c hc => ?_⟩
  rcases Cells.mem_put hc with rfl | hold
  · show (i.toNat : Int) < 256
    omega
  · exact hinside c hold

theorem stackCanonical_putZeros {first : Int} {n : Nat} (h : s.stackCanonical) (hn : first + n ≤ 256) :
    (s.putZeros first n).stackCanonical := by
  induction n generalizing s first with
  | zero => exact h
  | succ n ih => exact ih (stackCanonical_putCell h (by omega) 0) (by omega)

/-- After a push every cell of the longer window is written. -/
theorem windowWritten_push {n : Nat} {w : Word} {k : Nat} (hsp : -1 ≤ s.sp) (h : s.windowWritten)
    (hk : k < (s.sp + n + 1 + 1).toNat) : (((s.putZeros (s.sp + 1) n).putCell (s.sp + n + 1) w).cell? k).isSome := by
  rw [cell?_putZeros_putCell hsp]
  split_ifs with htop hzero
  · rfl
  · rfl
  · exact h k (by omega)

/-- Every kind of next state meets the invariant. -/
theorem Effect.inv (h : Effect s t) (hinv : s.Inv) : t.Inv := by
  obtain ⟨hprog, hstack, ⟨hlo, hhi⟩, hwritten⟩ := hinv
  have hcap : stackCap = 256 := rfl
  cases h with
  | fault | halt | registers | sleep | wrote | writeFailed => exact ⟨hprog, hstack, ⟨hlo, hhi⟩, hwritten⟩
  | drop v p sp hp h₀ h₁ =>
    refine ⟨hprog, hstack, ⟨h₀, h₁.trans hhi⟩, fun k hk => hwritten k (hk.trans_le ?_)⟩
    exact Int.toNat_le_toNat (by dsimp only; omega)
  | progWrite v w a h₀ h₁ => exact ⟨progCanonical_writeWord hprog h₀ h₁ w, hstack, ⟨hlo, hhi⟩, hwritten⟩
  | cellWrite v w i h₀ h₁ =>
    exact ⟨hprog, stackCanonical_putCell hstack (by omega) w, ⟨hlo, hhi⟩,
      fun k hk => State.putCell_isSome w (hwritten k hk)⟩
  | push w n p hp hroom =>
    have hzeros : (s.putZeros (s.sp + 1) n).stackCanonical := stackCanonical_putZeros hstack (by omega)
    have hsp : -1 ≤ s.sp + n + 1 ∧ s.sp + n + 1 ≤ stackCap - 1 := by omega
    refine ⟨?_, stackCanonical_putCell hzeros hroom w, hsp, fun k hk => windowWritten_push hlo hwritten hk⟩
    simpa [State.progCanonical] using hprog

/-- Settles O52: the invariant is kept by each kind of next state, whichever instruction answers it. -/
theorem everyStepKeepsTheInvariant : Obligations.EveryStepKeepsTheInvariant := by
  intro s t hinv hstep
  obtain ⟨-, heffect, -⟩ := step_effect hstep
  exact heffect.inv hinv

end Sys2Proof.Machine

/-! PROOFS. Which instructions may write what (10_state.md, R22, R25, R27; 20_memory.md, R50). `WritesAtMost` names the
fields a meaning may have written, and is followed through the operations a meaning is made of; so each instruction's
frame is the row of the writes its meaning names. -/

namespace Sys2Proof.Machine

/-- Only the fields marked `true` may differ between the two states. -/
structure WritesAtMost (acc sp prog stack : Bool) (s t : State) : Prop where
  keepsAcc : acc = false → t.acc = s.acc
  keepsSp : sp = false → t.sp = s.sp
  keepsProg : prog = false → t.prog = s.prog
  keepsStack : stack = false → t.stack = s.stack

section

variable {acc sp prog stack : Bool} {s t u : State}

namespace WritesAtMost

theorem refl : WritesAtMost acc sp prog stack s s :=
  ⟨fun _ => rfl, fun _ => rfl, fun _ => rfl, fun _ => rfl⟩

/-- The fields of another state that agrees on the four may be taken. -/
theorem congr (h : WritesAtMost acc sp prog stack s u) (hacc : t.acc = u.acc) (hsp : t.sp = u.sp)
    (hprog : t.prog = u.prog) (hstack : t.stack = u.stack) : WritesAtMost acc sp prog stack s t :=
  ⟨fun ha => hacc.trans (h.keepsAcc ha), fun hs => hsp.trans (h.keepsSp hs), fun hp => hprog.trans (h.keepsProg hp),
    fun hk => hstack.trans (h.keepsStack hk)⟩

theorem setAcc (h : WritesAtMost true sp prog stack s u) (v : Word) : WritesAtMost true sp prog stack s (u.setAcc v) :=
  ⟨nofun, h.keepsSp, h.keepsProg, h.keepsStack⟩

theorem setSp (h : WritesAtMost acc true prog stack s u) (i : Int) : WritesAtMost acc true prog stack s (u.setSp i) :=
  ⟨h.keepsAcc, nofun, h.keepsProg, h.keepsStack⟩

theorem putCell (h : WritesAtMost acc sp prog true s u) (i : Int) (v : Word) :
    WritesAtMost acc sp prog true s (u.putCell i v) :=
  ⟨h.keepsAcc, h.keepsSp, h.keepsProg, nofun⟩

theorem putZeros (first : Int) (n : Nat) : WritesAtMost acc sp prog true s (s.putZeros first n) :=
  ⟨fun _ => State.putZeros_acc s first n, fun _ => State.putZeros_sp s first n, fun _ => State.putZeros_prog s first n,
    nofun⟩

theorem hostWrote (bytes : List Byte) (accepted : Nat) :
    WritesAtMost acc sp prog stack s (s.hostWrote bytes accepted) :=
  refl.congr rfl rfl rfl rfl

theorem hostSlept (ms : Nat) : WritesAtMost acc sp prog stack s (s.hostSlept ms) :=
  refl.congr rfl rfl rfl rfl

theorem of_writeProg {a : Int} {v : Word} (h : s.writeProg a v = .ok u) : WritesAtMost acc sp true stack s u := by
  rcases s.writeProg_cases a v with ⟨-, -, hok⟩ | herr
  · rw [hok] at h
    cases h
    exact ⟨fun _ => rfl, fun _ => rfl, nofun, fun _ => rfl⟩
  · rw [herr] at h
    cases h

theorem of_writeCell {i : Int} {v : Word} (h : s.writeCell i v = .ok u) : WritesAtMost acc sp prog true s u := by
  rcases s.writeCell_cases i v with ⟨-, -, hok⟩ | herr
  · rw [hok] at h
    cases h
    exact refl.putCell i v
  · rw [herr] at h
    cases h

/-! ## The ends of a meaning -/

theorem of_advance (h : WritesAtMost acc sp prog stack s u) (ht : advance u = .next t) :
    WritesAtMost acc sp prog stack s t := by
  cases ht
  exact h.congr rfl rfl rfl rfl

theorem of_jumpTo {target : Int} (h : WritesAtMost acc sp prog stack s u) (ht : jumpTo target u = .next t) :
    WritesAtMost acc sp prog stack s t := by
  cases ht
  exact h.congr rfl rfl rfl rfl

/-- A fault writes none of the four fields. -/
theorem of_orRaise {α : Type} {c : Checked α} {go : α → Answer} (ht : orRaise s c go = .next t)
    (hgo : ∀ v, c = .ok v → go v = .next t → WritesAtMost acc sp prog stack s t) :
    WritesAtMost acc sp prog stack s t := by
  rcases orRaise_next ht with ⟨v, hok, hnext⟩ | ⟨cause, -, rfl⟩
  · exact hgo v hok hnext
  · exact refl.congr rfl rfl rfl rfl

/-- A checked value that goes into the accumulator. -/
theorem of_checked_setAcc {α : Type} {c : Checked α} {f : α → Word}
    (ht : orRaise s c (fun v => advance (s.setAcc (f v))) = .next t) :
    WritesAtMost true sp prog stack s t :=
  of_orRaise ht fun v _ hv => (refl.setAcc (f v)).of_advance hv

theorem of_jumpIf {taken : Bool} {x : BitVec 56} (ht : jumpIf taken x s = .next t) :
    WritesAtMost acc sp prog stack s t := by
  cases taken
  · exact refl.of_advance ht
  · exact refl.of_jumpTo ht

theorem of_finishWrite {bytes : List Byte} {accepted : Nat} (ht : finishWrite bytes accepted s = .next t) :
    WritesAtMost true sp prog stack s t := by
  unfold finishWrite at ht
  split_ifs at ht
  · cases ht
    exact ((hostWrote bytes accepted).setAcc (word (-1))).congr rfl rfl rfl rfl
  · exact ((hostWrote bytes accepted).setAcc _).of_advance ht

theorem of_writeCall {space : Space} {w : Int} (ht : writeCall space w s = .next t) :
    WritesAtMost true sp prog stack s t := by
  refine of_orRaise ht fun length _ ht => ?_
  split_ifs at ht
  · exact (refl.setAcc 0).of_advance ht
  · exact of_orRaise ht fun bytes _ ht => of_finishWrite ht

/-- Of the syscalls only Write writes the accumulator (R204, R206, R211). -/
theorem of_syscall {space : Space} {id : BitVec 8} {arg : BitVec 48} (ht : syscall space id arg s = .next t) :
    WritesAtMost (id = Config.syscallWrite) sp prog stack s t := by
  unfold syscall at ht
  split_ifs at ht with hexit hsleep hwrite
  · cases ht
    exact refl.congr rfl rfl rfl rfl
  · exact of_orRaise ht fun _ _ ht => (hostSlept _).of_advance ht
  · rw [decide_eq_true hwrite]
    exact of_writeCall ht
  · cases ht
    exact refl.congr rfl rfl rfl rfl

end WritesAtMost

/-! ## Every instruction -/

open WritesAtMost in
/-- The four tables of the spec are the writes the meanings name. -/
theorem exec_writesAtMost {i : Instr} (ht : exec i s = .next t) :
    WritesAtMost (writesAcc i) (writesSp i) (writesProg i) (writesStack i) s t := by
  cases i with
  | loadI x | addI x | subI x | mulI x | andI x => exact (refl.setAcc _).of_advance ht
  | divI x | modI x | shiftI x | loadR x | addR x | subR x | mulR x | loadS x | addS x | subS x | mulS x =>
    exact of_checked_setAcc ht
  | divR x | divS x => exact of_orRaise ht fun _ _ ht => of_checked_setAcc ht
  | jnz x | jneg x | jpos x => exact of_jumpIf ht
  | jumpR x => exact refl.of_jumpTo ht
  | storeR x => exact of_orRaise ht fun _ hwrite ht => (of_writeProg hwrite).of_advance ht
  | incrR delta off =>
    exact of_orRaise ht fun _ _ ht => of_orRaise ht fun _ hwrite ht => ((of_writeProg hwrite).setAcc _).of_advance ht
  | call x => exact of_orRaise ht fun _ _ ht => ((refl.putCell _ _).setSp _).of_jumpTo ht
  | ret x =>
    exact of_orRaise ht fun _ _ ht => of_orRaise ht fun _ _ ht => of_orRaise ht fun _ _ ht =>
      (refl.setSp _).of_jumpTo ht
  | push x =>
    exact of_orRaise ht fun _ _ ht => of_orRaise ht fun _ _ ht => (((putZeros _ _).putCell _ _).setSp _).of_advance ht
  | pop x =>
    exact of_orRaise ht fun _ _ ht => of_orRaise ht fun _ _ ht => of_orRaise ht fun _ _ ht =>
      ((refl.setAcc _).setSp _).of_advance ht
  | storeS x => exact of_orRaise ht fun _ hwrite ht => (of_writeCell hwrite).of_advance ht
  | incrS delta off =>
    exact of_orRaise ht fun _ _ ht => of_orRaise ht fun _ hwrite ht => (of_writeCell hwrite).of_advance ht
  | idivS x =>
    exact of_orRaise ht fun _ _ ht => of_orRaise ht fun _ _ ht => of_orRaise ht fun _ _ ht =>
      of_orRaise ht fun _ hwrite ht => ((of_writeCell hwrite).setAcc _).of_advance ht
  | storeSB slot base =>
    exact of_orRaise ht fun _ _ ht => of_orRaise ht fun _ _ ht => of_orRaise ht fun _ _ ht =>
      of_orRaise ht fun _ hwrite ht => (of_writeCell hwrite).of_advance ht
  | sys id arg | sysS id arg => exact of_syscall ht
  | sysExit arg => exact of_syscall (space := .program) (id := Config.syscallExit) ht
  | sysSleep arg => exact of_syscall (space := .program) (id := Config.syscallSleep) ht
  | sysWrite arg => exact of_syscall (space := .program) (id := Config.syscallWrite) ht
  | sysSExit arg => exact of_syscall (space := .stack) (id := Config.syscallExit) ht
  | sysSSleep arg => exact of_syscall (space := .stack) (id := Config.syscallSleep) ht
  | sysSWrite arg => exact of_syscall (space := .stack) (id := Config.syscallWrite) ht

/-- No kind of next state unwrites a cell (R27). -/
theorem Effect.cell?_isSome {j : Int} (h : Effect s t) (hj : (s.cell? j).isSome) : (t.cell? j).isSome := by
  cases h with
  | cellWrite v w i h₀ h₁ => exact State.putCell_isSome w hj
  | push w n p hp hroom => exact State.putCell_isSome w (State.putZeros_isSome hj)
  | _ => exact hj

end

/-- Settles O59: a meaning writes at most the fields of its tables, and a written mark is never taken back. -/
theorem onlyListedInstructionsWrite : Obligations.OnlyListedInstructionsWrite := by
  intro i s t hexec
  obtain ⟨hacc, hsp, hprog, hstack⟩ := exec_writesAtMost hexec
  refine ⟨hacc, hsp, fun h b => ?_, fun h j => ?_, fun j hj => (exec_effect hexec).cell?_isSome hj⟩
  · rw [hprog h]
  · rw [State.cell?, State.cell?, hstack h]

end Sys2Proof.Machine

/-! PROOFS. The left fold of an arithmetic program (41_immediate_alu.md, R110). One word of the row does to the
accumulator what its operation does, or ends the run where the operation is a faulting division; the row is then an
induction over its operations, ending with the step that falls off the end. -/

namespace Sys2Proof.Machine

/-! ## One operation of the fold -/

theorem wellFormed_foldOp (op : FoldOp) (x : BitVec 56) : WellFormed (op.instr x) = true := by
  cases op <;> rfl

theorem not_divisionFaults {a b : Int} (h : ¬divisionFaults a b) : b ≠ 0 ∧ ¬DivisionOverflows a b :=
  not_or.1 h

theorem quotient_immediate (acc : Word) (x : BitVec 56) :
    quotient acc (immediate x) = word (acc.toInt.tdiv x.toInt) := by
  rw [quotient, immediate_toInt]

theorem remainder_immediate (acc : Word) (x : BitVec 56) :
    remainder acc (immediate x) = word (acc.toInt.tmod x.toInt) := by
  rw [remainder, immediate_toInt]

/-- An operation that has a value leaves it in the accumulator, and changes nothing else but the pc. -/
theorem exec_foldOp_of_some {op : FoldOp} {x : BitVec 56} {s : State} {v : Word} (h : op.apply s.acc x = some v) :
    exec (op.instr x) s = .next { s with acc := v, pc := s.pc + 1 } := by
  cases op with
  | load =>
    cases h
    rw [← immediate_eq_word_toInt]
    rfl
  | add | sub | mul =>
    cases h
    rw [← immediate_toInt x]
    rfl
  | and =>
    cases h
    rfl
  | div =>
    obtain ⟨hdefined, hv⟩ := Option.ite_none_left_eq_some.1 h
    obtain ⟨hb, ho⟩ := not_divisionFaults hdefined
    rw [← immediate_toInt x] at hb ho
    rw [← Option.some.inj hv, ← quotient_immediate]
    exact (exec_divI x s).trans (orRaise_advance_setAcc (aluDiv_ok hb ho))
  | mod =>
    obtain ⟨hdefined, hv⟩ := Option.ite_none_left_eq_some.1 h
    obtain ⟨hb, ho⟩ := not_divisionFaults hdefined
    rw [← immediate_toInt x] at hb ho
    rw [← Option.some.inj hv, ← remainder_immediate]
    exact (exec_modI x s).trans (orRaise_advance_setAcc (aluMod_ok hb ho))

/-- An operation that has no value is a division that faults. -/
theorem divisionFaults_of_apply_none {op : FoldOp} {acc : Word} {x : BitVec 56} (h : op.apply acc x = none) :
    (op = .div ∨ op = .mod) ∧ divisionFaults acc.toInt x.toInt := by
  cases op with
  | load | add | sub | mul | and => cases h
  | div =>
    rw [FoldOp.apply, ite_eq_left_iff] at h
    exact ⟨.inl rfl, by_contra fun hdefined => nomatch h hdefined⟩
  | mod =>
    rw [FoldOp.apply, ite_eq_left_iff] at h
    exact ⟨.inr rfl, by_contra fun hdefined => nomatch h hdefined⟩

theorem exec_foldOp_of_none {op : FoldOp} {x : BitVec 56} {s : State} (h : op.apply s.acc x = none) :
    ∃ cause, Raises (op.instr x) s cause := by
  obtain ⟨hzero, hoverflow, -⟩ := Sys2Proof.divisionFaults x s
  obtain ⟨rfl | rfl, hb | ho⟩ := divisionFaults_of_apply_none h
  · exact ⟨_, (hzero hb).1⟩
  · exact ⟨_, (hoverflow ho).1⟩
  · exact ⟨_, (hzero hb).2⟩
  · exact ⟨_, (hoverflow ho).2⟩

/-! ## The row of operations -/

theorem steps_succ {s t : State} (h : step s = .next t) (k : Nat) : steps (k + 1) s = steps k t := by
  rw [steps, h]

/-- From the pc on to the end of P the words are those of the operations (the row of R110). -/
def State.runsFold (s : State) (ops : List (FoldOp × BitVec 56)) : Prop :=
  s.status = .running ∧ 0 ≤ s.pc ∧ s.pc + ops.length = s.progLen ∧
    ∀ k : Nat, k < ops.length → s.progWord? (s.pc + k) = ops[k]?.map fun o => encode (o.1.instr o.2)

section Row

variable {s : State} {op : FoldOp} {x : BitVec 56} {rest : List (FoldOp × BitVec 56)}

/-- The next step runs the first operation. -/
theorem State.runsFold.step_eq (h : s.runsFold ((op, x) :: rest)) : step s = exec (op.instr x) s := by
  obtain ⟨hrun, -, -, hwords⟩ := h
  have hword := hwords 0 (Nat.zero_lt_succ _)
  rw [Int.natCast_zero, Int.add_zero] at hword
  exact step_of_word hrun hword (decode_encode (wellFormed_foldOp op x))

/-- After it the row of the others is left. -/
theorem State.runsFold.tail (h : s.runsFold ((op, x) :: rest)) (v : Word) :
    { s with acc := v, pc := s.pc + 1 }.runsFold rest := by
  obtain ⟨hrun, hpc, hend, hwords⟩ := h
  rw [List.length_cons] at hend hwords
  refine ⟨hrun, by dsimp only; omega, by dsimp only; omega, fun k hk => ?_⟩
  have hword := hwords (k + 1) (by omega)
  rw [List.getElem?_cons_succ] at hword
  rw [← hword, show s.pc + (k + 1 : Nat) = s.pc + 1 + k by omega]
  rfl

end Row

/-- A row whose fold has a value falls off the end with it. -/
theorem steps_of_fold_some {ops : List (FoldOp × BitVec 56)} {s : State} {v : Word} (h : s.runsFold ops)
    (hfold : foldAcc s.acc ops = some v) :
    steps (ops.length + 1) s = .next
      { s with acc := v, pc := s.progLen, log := s.log ++ [.diag (.fallThrough v)], status := .halted 0 } := by
  induction ops generalizing s with
  | nil =>
    obtain ⟨hrun, -, hend, -⟩ := h
    have hpc : s.pc = s.progLen := by simpa using hend
    cases hfold
    rw [← hpc]
    exact steps_succ (step_of_pastEnd hrun hpc.ge) 0
  | cons o rest ih =>
    obtain ⟨op, x⟩ := o
    rw [foldAcc] at hfold
    split at hfold
    · next w hw =>
      rw [List.length_cons, steps_succ (h.step_eq.trans (exec_foldOp_of_some hw))]
      exact ih (h.tail w) hfold
    · cases hfold

/-- A row whose fold has none ends Fatal at the division that faults. -/
theorem steps_of_fold_none {ops : List (FoldOp × BitVec 56)} {s : State} (h : s.runsFold ops)
    (hfold : foldAcc s.acc ops = none) :
    ∃ k t r, k ≤ ops.length ∧ steps k s = .next t ∧ t.status = .fatal r := by
  induction ops generalizing s with
  | nil => cases hfold
  | cons o rest ih =>
    obtain ⟨op, x⟩ := o
    rw [foldAcc] at hfold
    split at hfold
    · next w hw =>
      obtain ⟨k, t, r, hk, hsteps, hfatal⟩ := ih (h.tail w) hfold
      exact ⟨k + 1, t, r, Nat.succ_le_succ hk,
        (steps_succ (h.step_eq.trans (exec_foldOp_of_some hw)) k).trans hsteps, hfatal⟩
    · next hnone =>
      obtain ⟨cause, hraises⟩ := exec_foldOp_of_none hnone
      exact ⟨1, _, _, Nat.succ_le_succ (Nat.zero_le _), steps_succ (h.step_eq.trans hraises) 0, rfl⟩

/-- Settles O58: the fold is followed operation by operation along the row. -/
theorem arithmeticProgramIsALeftFold : Obligations.ArithmeticProgramIsALeftFold := by
  intro ops s hrun hpc hend hwords
  have hrow : s.runsFold ops := ⟨hrun, hpc, hend, hwords⟩
  exact ⟨fun v hfold => steps_of_fold_some hrow hfold, steps_of_fold_none hrow⟩

end Sys2Proof.Machine
